-- ==== Sys2Proof/Config.lean ====
section
/-! DEFINITION. The parameters the document fixes (R6) and the names of R1. The spec leaves no parameter open
("a model takes no configuration argument", R7) and no value free (93_implementation_defined.md part 1), so there is
no opaque constant here. -/

namespace Sys2Proof.Config

/-- The spec's name for the hardware (R1, D1). -/
def hardwareName : String := "DCF77CODEC"

/-- The spec's version of the command interface (R1, D1). -/
def interfaceVersion : String := "DCF77CODEC-1"

/-- `BLOCK_BYTES` (R6): bytes in a Block. -/
abbrev blockBytes : Nat := 8

/-- `BLOCK_BITS` (R6): bits in a Block. -/
abbrev blockBits : Nat := 64

/-- `STREAM_BITS` (R6): bit positions 0..59 that the field layout covers. -/
abbrev streamBits : Nat := 60

/-- `FIELD_COUNT` (R6): rows of the field layout. -/
abbrev fieldCount : Nat := 18

/-- `PAR_WIDTH` (R6): width of the even-parity operand. -/
abbrev parWidth : Nat := 32

/-- `BCD_MOD` (R6): modulus applied to a BCD-encode operand. -/
abbrev bcdMod : Nat := 100

/-- `HEXTEXT_CHARS` (R6): characters of the hex-text form of a Block. -/
abbrev hexTextChars : Nat := 16

end Sys2Proof.Config
end

