-- ==== Sys2Proof/Word.lean ====
section
/-! DEFINITION. The words of the block: the widths the spec fixes for `BLK`, `CW` and `ARG` (R7, R8, R14, R47).
All of them are unsigned bit vectors whose bit 0 is the least significant (R8). -/

namespace Sys2Proof

/-- A 64-bit value: the contents of `BLK`, the operand `ARG`, the result `RES`, a `CAL` word (R14, R47, R55). -/
abbrev Word64 := BitVec 64

/-- The 16-bit command word `CW` (R47, R48). -/
abbrev CmdWord := BitVec 16

/-- An 8-bit value: a BCD byte, a numeric member of a `CAL` word (R66, R55). -/
abbrev Byte := BitVec 8

end Sys2Proof
end

