-- ==== Sys2Proof/Syntax.lean ====
section
/-! DEFINITION. The twelve commands (R51), the eighteen fields (R27, R54) and the command as the host presents it
(R47). `SPLIT` is a pseudo-instruction (R61) and has no constructor: it is `Machine.split` of Machine/Asm.lean. -/

namespace Sys2Proof

/-- The commands of the block, one constructor per row of spec/opcode_table.json (R51). `fsel` is `CW[4:0]`, used as
an unsigned number with no extension, scaling or shift (R54, R58). The operand `ARG` is an input of the step, not
part of the command word (R47), so it stands in the state's operand port and not here. -/
inductive Instr where
  /-- `CLR`, R63: make the Block empty. -/
  | clr
  /-- `LDBLK`, R64: take a pre-supplied Block from `ARG`. -/
  | ldblk
  /-- `RDBLK`, R65: give the Block out. -/
  | rdblk
  /-- `BCDENC`, R67: BCD-encode `ARG[7:0]`. -/
  | bcdenc
  /-- `BCDDEC`, R69: BCD-decode `ARG[7:0]`. -/
  | bcddec
  /-- `PAR32`, R73: even parity of `ARG[31:0]`. -/
  | par32
  /-- `PCALC`, R75: recompute the three parity bits of the Block. -/
  | pcalc
  /-- `SYND`, R77: the parity syndrome of the Block. -/
  | synd
  /-- `ENCODE`, R86: calendar word `ARG` to telegram. -/
  | encode
  /-- `DECODE`, R92: telegram to calendar word. -/
  | decode
  /-- `GETF f`, R96: extract field `f`. -/
  | getf (fsel : BitVec 5)
  /-- `SETF f`, R97: overwrite field `f` from `ARG`. -/
  | setf (fsel : BitVec 5)
  deriving DecidableEq, Repr

/-- The 18 fields of the telegram, in the order of the document's table: the field number is the position, counted
from 0 (R27, R54, D9). The comment gives the name and the document's semantics. -/
inductive Field where
  /-- 0, `M`: start-of-minute marker, always 0 in a produced block. -/
  | m
  /-- 1, civil-info: opaque payload, not interpreted. -/
  | civ
  /-- 2, `R`: abnormal transmitter operation flag. -/
  | r
  /-- 3, `A1`: DST-change-announcement flag. -/
  | a1
  /-- 4, `Z1`: CEST (summer time) in effect. -/
  | z1
  /-- 5, `Z2`: CET (standard time) in effect. -/
  | z2
  /-- 6, `A2`: leap-second announcement. -/
  | a2
  /-- 7, `S`: start-of-encoded-time marker, always 1 in a produced block. -/
  | s
  /-- 8, minute: BCD 00..59. -/
  | min
  /-- 9, `P1`: even parity over the minute field. -/
  | p1
  /-- 10, hour: BCD 00..23. -/
  | hour
  /-- 11, `P2`: even parity over the hour field. -/
  | p2
  /-- 12, dayOfMonth: BCD 01..31. -/
  | day
  /-- 13, dayOfWeek: 1 = Monday .. 7 = Sunday. -/
  | dow
  /-- 14, month: BCD 01..12. -/
  | mon
  /-- 15, year: BCD 00..99, within the century. -/
  | year
  /-- 16, `P3`: even parity over dayOfMonth, dayOfWeek, month and year. -/
  | p3
  /-- 17, `MM`: minute-mark slot, always 0 in a produced block. -/
  | mm
  deriving DecidableEq, Repr

/-- The 18 fields in the fixed order of the table (R27, R54). -/
def Field.all : List Field :=
  [.m, .civ, .r, .a1, .z1, .z2, .a2, .s, .min, .p1, .hour, .p2, .day, .dow, .mon, .year, .p3, .mm]

/-- What the host presents to the block: the pair of inputs of R47, always both. -/
structure Command where
  /-- The command word `CW`. -/
  cw : CmdWord
  /-- The operand `ARG`, present even when the command ignores it. -/
  arg : Word64
  deriving DecidableEq, Repr

end Sys2Proof
end

