-- ==== Sys2Proof/WellFormed.lean ====
section
/-! DEFINITION. Which terms of `Instr` are commands: the field selector of `GETF` and `SETF` names one of the 18 rows of
the layout (R52, R54). The other commands have no operand in the command word and nothing to check. -/

namespace Sys2Proof

/-- The one check of R52 on an instruction term: `FSEL <= 17`. -/
def fselInRange (fsel : BitVec 5) : Bool := decide (fsel.toNat < Config.fieldCount)

/-- Well-formedness of a command (R52, R54). -/
def Instr.wellFormed : Instr → Bool
  | .clr | .ldblk | .rdblk | .bcdenc | .bcddec | .par32 | .pcalc | .synd | .encode | .decode => true
  | .getf fsel => fselInRange fsel
  | .setf fsel => fselInRange fsel

end Sys2Proof
end

