-- ==== Sys2Proof/Decode.lean ====
section
/-! DEFINITION. The command word (R48), its opcode map (R51), the decoder, total on all 65536 words (R52, R53), and the
encoder written from the same map. -/

namespace Sys2Proof

/-- The four ways a command word is illegal (R53, R104). The name is the model's report of why; the block itself
reports one `IllegalCommand` whatever the reason, also when several hold (R111). -/
inductive IllegalReason where
  /-- `OP` is `0xC`..`0xF`. -/
  | reservedOpcode
  /-- `CW[11:5]` is not zero. -/
  | zeroFieldSet
  /-- `CW[4:0]` is not zero with an opcode `0x0`..`0x9`. -/
  | fselNotAllowed
  /-- `CW[4:0]` is 18..31 with `GETF` or `SETF`. -/
  | fselOutOfRange
  deriving DecidableEq, Repr

/-- What a decoder returns for a command word: one of the 12 commands, or the verdict illegal (R52). -/
inductive Verdict where
  | command (i : Instr)
  | illegal (why : IllegalReason)
  deriving DecidableEq, Repr

/-- `OP = CW[15:12]` (R48). -/
def opOf (cw : CmdWord) : BitVec 4 := cw.extractLsb' 12 4

/-- `ZERO = CW[11:5]` (R48). -/
def zeroOf (cw : CmdWord) : BitVec 7 := cw.extractLsb' 5 7

/-- `FSEL = CW[4:0]` (R48, R54). -/
def fselOf (cw : CmdWord) : BitVec 5 := cw.extractLsb' 0 5

/-- A command of opcode `0x0`..`0x9`: `CW[11:0]` must be 0 (R52). -/
def plainCommand (i : Instr) (cw : CmdWord) : Verdict :=
  if zeroOf cw ≠ 0 then .illegal .zeroFieldSet
  else if fselOf cw ≠ 0 then .illegal .fselNotAllowed
  else .command i

/-- A command of opcode `0xA` or `0xB`: `CW[11:5]` must be 0 and `CW[4:0] <= 17` (R52). -/
def fieldCommand (mk : BitVec 5 → Instr) (cw : CmdWord) : Verdict :=
  if zeroOf cw ≠ 0 then .illegal .zeroFieldSet
  else if fselInRange (fselOf cw) then .command (mk (fselOf cw))
  else .illegal .fselOutOfRange

/-- The decoder, by the opcode map of R51; `0xC`..`0xF` are reserved and illegal (R53). -/
def decode (cw : CmdWord) : Verdict :=
  match opOf cw with
  | 0x0#4 => plainCommand .clr cw
  | 0x1#4 => plainCommand .ldblk cw
  | 0x2#4 => plainCommand .rdblk cw
  | 0x3#4 => plainCommand .bcdenc cw
  | 0x4#4 => plainCommand .bcddec cw
  | 0x5#4 => plainCommand .par32 cw
  | 0x6#4 => plainCommand .pcalc cw
  | 0x7#4 => plainCommand .synd cw
  | 0x8#4 => plainCommand .encode cw
  | 0x9#4 => plainCommand .decode cw
  | 0xA#4 => fieldCommand .getf cw
  | 0xB#4 => fieldCommand .setf cw
  | _ => .illegal .reservedOpcode

/-- Legality as R52 writes it, on the command word alone. -/
abbrev Legal (cw : CmdWord) : Prop :=
  (opOf cw ≤ 0x9#4 ∧ cw.extractLsb' 0 12 = 0) ∨
  ((opOf cw = 0xA#4 ∨ opOf cw = 0xB#4) ∧ zeroOf cw = 0 ∧ (fselOf cw).toNat ≤ 17)

/-- The command word format `C` of R48 with `ZERO = 0`. -/
def commandWord (op : BitVec 4) (fsel : BitVec 5) : CmdWord := op ++ 0#7 ++ fsel

/-- The encoder (R48, R51): the command word of an instruction. -/
def encode : Instr → CmdWord
  | .clr => commandWord 0x0 0
  | .ldblk => commandWord 0x1 0
  | .rdblk => commandWord 0x2 0
  | .bcdenc => commandWord 0x3 0
  | .bcddec => commandWord 0x4 0
  | .par32 => commandWord 0x5 0
  | .pcalc => commandWord 0x6 0
  | .synd => commandWord 0x7 0
  | .encode => commandWord 0x8 0
  | .decode => commandWord 0x9 0
  | .getf fsel => commandWord 0xA fsel
  | .setf fsel => commandWord 0xB fsel

/-- The mnemonic of R51. -/
def mnemonic : Instr → String
  | .clr => "CLR"
  | .ldblk => "LDBLK"
  | .rdblk => "RDBLK"
  | .bcdenc => "BCDENC"
  | .bcddec => "BCDDEC"
  | .par32 => "PAR32"
  | .pcalc => "PCALC"
  | .synd => "SYND"
  | .encode => "ENCODE"
  | .decode => "DECODE"
  | .getf _ => "GETF"
  | .setf _ => "SETF"

/-- One row of the opcode map of R51: the match and mask columns are on the 16-bit `CW`; `fieldRow` says that the
extra condition `f <= 17` applies. -/
structure OpcodeRow where
  mnemonic : String
  matchBits : CmdWord
  mask : CmdWord
  fieldRow : Bool
  deriving DecidableEq, Repr

/-- The opcode map as R51 tabulates it, by match and mask; the decoder does not use it, so that the two can be held
against each other. -/
def opcodeTable : List OpcodeRow :=
  [⟨"CLR", 0x0000, 0xFFFF, false⟩, ⟨"LDBLK", 0x1000, 0xFFFF, false⟩, ⟨"RDBLK", 0x2000, 0xFFFF, false⟩,
   ⟨"BCDENC", 0x3000, 0xFFFF, false⟩, ⟨"BCDDEC", 0x4000, 0xFFFF, false⟩, ⟨"PAR32", 0x5000, 0xFFFF, false⟩,
   ⟨"PCALC", 0x6000, 0xFFFF, false⟩, ⟨"SYND", 0x7000, 0xFFFF, false⟩, ⟨"ENCODE", 0x8000, 0xFFFF, false⟩,
   ⟨"DECODE", 0x9000, 0xFFFF, false⟩, ⟨"GETF", 0xA000, 0xFFE0, true⟩, ⟨"SETF", 0xB000, 0xFFE0, true⟩]

/-- A command word meets a row: match, mask and the extra condition of R51. -/
abbrev OpcodeRow.Accepts (row : OpcodeRow) (cw : CmdWord) : Prop :=
  cw &&& row.mask = row.matchBits ∧ (row.fieldRow = true → (fselOf cw).toNat ≤ 17)

/-- The instruction the decoder reads from a row's word of `nbits` bits, numbered as the opcode table numbers them
(bit 0 least significant). There is one command length, 16 bits (R47, R62); a value that does not fit it is no
command word. -/
def decodeTableWord (nbits w : Nat) : Option Instr :=
  if w % 2 ^ nbits < 2 ^ 16 then
    match decode (BitVec.ofNat 16 (w % 2 ^ nbits)) with
    | .command i => some i
    | .illegal _ => none
  else none

end Sys2Proof
end

