-- ==== Sys2Proof/Machine/State.lean ====
section
/-! DEFINITION. The state: the block's one register `BLK` (R13, R14), and beside it, as plain data, the ports of the step
function of R47 (`CW`, `ARG` in; `RES`, `ST` out) and the host's two ends of the command sequence (R42, R125): the
commands it has yet to present and the responses it has been given. The spec's architectural state is `blk` alone;
the other fields are the MODEL's, because the step of this package takes a state and nothing else
(notes/assumptions/1.md, 2.md, 3.md). -/

namespace Sys2Proof.Machine

/-- The status output `ST` of a command, 1 bit (R50). -/
inductive Status where
  /-- `ST = 0`. -/
  | ok
  /-- `ST = 1`: the command word was illegal. -/
  | illegal
  deriving DecidableEq, Repr

/-- What the host gets back from one command: the outputs `RES` and `ST` (R47, R125). -/
structure Response where
  /-- `RES[63:0]`. -/
  res : Word64
  /-- `ST`. -/
  st : Status
  deriving DecidableEq, Repr

structure State where
  /-- `BLK`, the telegram register: the whole architectural state of the block (R13, R14). -/
  blk : Word64
  /-- The command word input `CW` of the current command (R9, R47). Model's own field. -/
  cw : CmdWord
  /-- The operand input `ARG` of the current command (R9, R49). Model's own field. -/
  arg : Word64
  /-- The commands the host has yet to present, in the order it will present them (R42, R125). Model's own field. -/
  pending : List Command
  /-- The responses the host has been given, oldest first (R125); the block neither holds nor reads them
  (R20, R121). Empty before the first command, when "`RES` and `ST` have no value" (R21). Model's own field. -/
  responses : List Response
  deriving DecidableEq, Repr

/-- The ways the machine can stop with a fault: NONE. The step of the block is total (R47), its one exception is a
status report after which the next command executes normally (R103), and "Nothing in this spec is treated as "fault"
or "stuck"" (93_implementation_defined.md). The type has no constructor, so no run can end in a fault. -/
inductive Fault where
  deriving DecidableEq, Repr

/-- Why an instruction has no meaning. -/
inductive Refusal where
  /-- Raised only by an arm of `exec` for an instruction not modelled yet; there is no such arm. Safe: the model
  stops where the hardware goes on. -/
  | notModelled (mnemonic : String)
  deriving DecidableEq, Repr

/-- What a meaning answers. -/
abbrev Result := Host.Outcome State Fault Refusal

/-- The machine right after reset (R21, R117): `BLK` is all zero; there is no other state to initialise, no command
has been presented and no response given. `CW` and `ARG` are inputs and have no reset value: the zeros are a DESIGN
CHOICE (notes/assumptions/2.md) that no step can observe, because a step drives both ports before it reads them. -/
def State.reset : State :=
  { blk := 0, cw := 0, arg := 0, pending := [], responses := [] }

end Sys2Proof.Machine
end

