-- ==== Sys2Proof/Machine/Ops.lean ====
section
/-! DEFINITION. The named operations on the state: presenting a command, writing `BLK`, giving the response, and the one
exception of the block. Every meaning is made of these. -/

namespace Sys2Proof.Machine

/-- The 1-bit encoding of `ST`, which is also the cause code (R50, R103): 0 `OK`, 1 `ILLEGAL`. -/
def Status.code : Status → BitVec 1
  | .ok => 0
  | .illegal => 1

/-- The 64-bit result of a narrower value: zero-extended (R50). -/
def zext64 {n : Nat} (v : BitVec n) : Word64 := v.setWidth 64

/-- Drive `RES` and `ST` as the response to the current command and hand them to the host (R47, R121, R125). -/
def respond (res : Word64) (st : Status) (s : State) : State :=
  { s with responses := s.responses ++ [⟨res, st⟩] }

/-- `BLK <- v` (R9). -/
def writeBlk (v : Word64) (s : State) : State := { s with blk := v }

/-- A legal command that leaves `BLK` unchanged and answers `RES <- res`, `ST <- 0` (R9, R50). -/
def answer (res : Word64) (s : State) : Result := .next (respond res .ok s)

/-- A legal command that writes `BLK <- v` and returns the new `BLK` in `RES` (R50, D7): `CLR`, `LDBLK`, `ENCODE`,
`SETF`. -/
def store (v : Word64) (s : State) : Result := .next (respond v .ok (writeBlk v s))

/-- Taking the one exception, `raise IllegalCommand(CW)` (R103): `ST <- 1`, `RES <- 0`, `BLK` unchanged. Nothing is
saved and control goes nowhere (R112), so there is no return from it (R113): the next command executes normally. -/
def raiseIllegal (s : State) : Result := .next (respond 0 .illegal s)

/-- The host presents its next command on the ports `CW` and `ARG` (R42, R125); `none` when it presents no further
command. -/
def present (s : State) : Option State :=
  match s.pending with
  | [] => none
  | c :: cs => some { s with cw := c.cw, arg := c.arg, pending := cs }

/-- No command is presented: the block is idle and does nothing (R110, R115). -/
def idle (s : State) : Result := .next s

/-- The host puts a command before those it has yet to present. -/
def enqueueFirst (c : Command) (s : State) : State := { s with pending := c :: s.pending }

end Sys2Proof.Machine
end

