-- ==== Sys2Proof/Machine/Operands.lean ====
section
/-! DEFINITION. The addressings of the Block: by stream bit, by byte, by field (R23 to R35), with the field layout (R27) and
field extract and insert (R31, R32); and the slices of `ARG` the commands use (R49). -/

namespace Sys2Proof

/-- `off(f)` of the layout table (R27). -/
def Field.off : Field → Nat
  | .m => 0
  | .civ => 1
  | .r => 15
  | .a1 => 16
  | .z1 => 17
  | .z2 => 18
  | .a2 => 19
  | .s => 20
  | .min => 21
  | .p1 => 28
  | .hour => 29
  | .p2 => 35
  | .day => 36
  | .dow => 42
  | .mon => 45
  | .year => 50
  | .p3 => 58
  | .mm => 59

/-- `wid(f)` of the layout table (R27). -/
def Field.wid : Field → Nat
  | .m => 1
  | .civ => 14
  | .r => 1
  | .a1 => 1
  | .z1 => 1
  | .z2 => 1
  | .a2 => 1
  | .s => 1
  | .min => 7
  | .p1 => 1
  | .hour => 6
  | .p2 => 1
  | .day => 6
  | .dow => 3
  | .mon => 5
  | .year => 8
  | .p3 => 1
  | .mm => 1

/-- The field number `f` of a field (R27, R54). -/
def Field.number : Field → BitVec 5
  | .m => 0
  | .civ => 1
  | .r => 2
  | .a1 => 3
  | .z1 => 4
  | .z2 => 5
  | .a2 => 6
  | .s => 7
  | .min => 8
  | .p1 => 9
  | .hour => 10
  | .p2 => 11
  | .day => 12
  | .dow => 13
  | .mon => 14
  | .year => 15
  | .p3 => 16
  | .mm => 17

end Sys2Proof

namespace Sys2Proof.Machine

/-- The field a selector names: row `f` of the layout, counted from 0; `none` for 18..31 (R54). -/
def fieldOf (fsel : BitVec 5) : Option Field := Field.all[fsel.toNat]?

/-- Replace the `len` bits of `b` from bit `start` upward by `v`, keep every other bit: the shift-and-mask insertion of
R32 (and of `MemWrite`, R24). -/
def insertBits (b : Word64) (start len : Nat) (v : BitVec len) : Word64 :=
  let mask : Word64 := (BitVec.allOnes len).setWidth 64 <<< start
  (b &&& ~~~mask) ||| (v.setWidth 64 <<< start)

/-- `get_field(b, f)` (R31): bits `off(f)+wid(f)-1 : off(f)` of `b`, a `wid(f)`-bit value whose bit `k` is stream
position `off(f) + k` (R30). -/
def getField (b : Word64) (f : Field) : BitVec f.wid := b.extractLsb' f.off f.wid

/-- `set_field(b, f, v)` (R32): the low `wid(f)` bits of `v` into the field, higher bits of `v` discarded (D11), every
other bit of `b` kept. -/
def setField {n : Nat} (b : Word64) (f : Field) (v : BitVec n) : Word64 :=
  insertBits b f.off f.wid (v.setWidth f.wid)

/-- Stream bit `i`, `0 <= i <= 59`, is `BLK[i]` (R23); positions 60..63 are not part of the stream (R29). -/
def streamBit (b : Word64) (i : Fin 60) : Bool := b.getLsbD i

/-- Byte `k` of the Block is `BLK[8k+7:8k]` (R24). -/
def blockByte (b : Word64) (k : Fin 8) : Byte := b.extractLsb' (8 * k) 8

/-- `MemRead(a, n)`: `n` bytes from byte address `a`, byte `a` least significant; defined for `a + n <= 8` (R9, R24).
Notation of the rules: no command takes a byte address. -/
def memRead (b : Word64) (a n : Nat) : Option (BitVec (8 * n)) :=
  if a + n ≤ 8 then some (b.extractLsb' (8 * a) (8 * n)) else none

/-- `MemWrite(a, n, v)`: replace those bytes, change no other bit; defined for `a + n <= 8` (R9, R24). -/
def memWrite (b : Word64) (a n : Nat) (v : BitVec (8 * n)) : Option Word64 :=
  if a + n ≤ 8 then some (insertBits b (8 * a) (8 * n) v) else none

/-- `ARG[7:0]`, the operand of `BCDENC` and `BCDDEC` (R49). -/
def argByte (s : State) : Byte := s.arg.extractLsb' 0 8

/-- `ARG[31:0]`, the operand of `PAR32` (R49). -/
def argWord32 (s : State) : BitVec 32 := s.arg.extractLsb' 0 32

end Sys2Proof.Machine
end

