-- ==== Sys2Proof/Machine/Bcd.lean ====
section
/-! DEFINITION. The BCD functions and the commands `BCDENC`, `BCDDEC` (41_bcd.md). -/

namespace Sys2Proof.Machine

/-- `bcd_enc(v)` (R66): `w = v mod 100`, then `((w / 10) << 4) or (w mod 10)`. -/
def bcdEnc (v : Byte) : Byte :=
  let w := v.toNat % Config.bcdMod
  (BitVec.ofNat 8 (w / 10) <<< 4) ||| BitVec.ofNat 8 (w % 10)

/-- `bcd_dec(b) = 10 * (b >> 4) + (b and 0xF)` (R68), for every byte, nibbles above 9 included (U1). -/
def bcdDec (b : Byte) : Byte := 10 * (b >>> 4) + (b &&& 0xF)

/-- `BCDENC` (R67): `RES <- zext_64(bcd_enc(ARG[7:0]))`. -/
def execBcdenc (s : State) : Result := answer (zext64 (bcdEnc (argByte s))) s

/-- `BCDDEC` (R69): `RES <- zext_64(bcd_dec(ARG[7:0]))`. -/
def execBcddec (s : State) : Result := answer (zext64 (bcdDec (argByte s))) s

end Sys2Proof.Machine
end

