-- ==== Sys2Proof/Machine/Block.lean ====
section
/-! DEFINITION. The Block commands `CLR`, `LDBLK`, `RDBLK` (40_block.md). -/

namespace Sys2Proof.Machine

/-- `CLR` (R63): `BLK <- 0`, `RES <- 0`. -/
def execClr (s : State) : Result := store 0 s

/-- `LDBLK` (R64): `BLK <- ARG`, `RES <- ARG`; no bit is checked or changed. -/
def execLdblk (s : State) : Result := store s.arg s

/-- `RDBLK` (R65): `RES <- BLK`, all 64 bits. -/
def execRdblk (s : State) : Result := answer s.blk s

end Sys2Proof.Machine
end

