-- ==== Sys2Proof/Machine/Fields.lean ====
section
/-! DEFINITION. The field commands `GETF`, `SETF` (44_fields.md). A selector of 18..31 raises `IllegalCommand` (R96, R97); the
decoder already answers so for such a command word, so that arm is reached by no step. -/

namespace Sys2Proof.Machine

/-- `GETF f` (R96): `RES <- zext_64(get_field(BLK, f))`. -/
def execGetf (fsel : BitVec 5) (s : State) : Result :=
  match fieldOf fsel with
  | some f => answer (zext64 (getField s.blk f)) s
  | none => raiseIllegal s

/-- `SETF f` (R97): `BLK <- set_field(BLK, f, ARG)`, `RES` the new `BLK`; no parity update (R99), no range check. -/
def execSetf (fsel : BitVec 5) (s : State) : Result :=
  match fieldOf fsel with
  | some f => store (setField s.blk f s.arg) s
  | none => raiseIllegal s

end Sys2Proof.Machine
end

