-- ==== Sys2Proof/Machine/Flags.lean ====
section
/-! DEFINITION. Check bits. The block has no flags or condition codes (R18); what it computes of that kind are the even-parity
function (R72), the three recomputed parity bits (R74) and the syndrome (R76), all of them results and never stored
by the command that computes them. -/

namespace Sys2Proof.Machine

/-- How many of the `n` lowest bits of `x` are 1. -/
def popcountLow {w : Nat} (x : BitVec w) : Nat → Nat
  | 0 => 0
  | n + 1 => popcountLow x n + (x.getLsbD n).toNat

/-- `popcount(v)`: the number of bits of `v` that are 1 (R9). -/
def popcount {w : Nat} (x : BitVec w) : Nat := popcountLow x w

/-- `par32(x) = popcount(x) mod 2` on a 32-bit value (R72). -/
def par32 (x : BitVec 32) : BitVec 1 := BitVec.ofNat 1 (popcount x % 2)

/-- The parity of a field, zero-extended to 32 bits (R72, D21). -/
def fieldParity (b : Word64) (f : Field) : BitVec 1 := par32 ((getField b f).setWidth 32)

/-- `P1c`, the recomputed parity of the minute group (R74). -/
def p1c (b : Word64) : BitVec 1 := fieldParity b .min

/-- `P2c`, the recomputed parity of the hour group (R74). -/
def p2c (b : Word64) : BitVec 1 := fieldParity b .hour

/-- `P3c`, the recomputed parity of the date group: the xor of four parities (R74, conflict C8). -/
def p3c (b : Word64) : BitVec 1 :=
  fieldParity b .day ^^^ fieldParity b .dow ^^^ fieldParity b .mon ^^^ fieldParity b .year

/-- `pcalc(b) = {P3c, P2c, P1c}`, `P1c` in bit 0 (R74, R57). -/
def pcalc (b : Word64) : BitVec 3 := p3c b ++ p2c b ++ p1c b

/-- `synd(b) = {s3, s2, s1}`, recomputed xor stored, `s1` in bit 0 (R76, R57). -/
def synd (b : Word64) : BitVec 3 :=
  (p3c b ^^^ (getField b .p3).setWidth 1) ++ (p2c b ^^^ (getField b .p2).setWidth 1) ++
    (p1c b ^^^ (getField b .p1).setWidth 1)

end Sys2Proof.Machine
end

