-- ==== Sys2Proof/Machine/Parity.lean ====
section
/-! DEFINITION. The parity commands `PAR32`, `PCALC`, `SYND` (42_parity.md). -/

namespace Sys2Proof.Machine

/-- `PAR32` (R73): `RES <- zext_64(par32(ARG[31:0]))`. -/
def execPar32 (s : State) : Result := answer (zext64 (par32 (argWord32 s))) s

/-- `PCALC` (R75): `RES <- zext_64(pcalc(BLK))`; the bits are not stored. -/
def execPcalc (s : State) : Result := answer (zext64 (pcalc s.blk)) s

/-- `SYND` (R77): `RES <- zext_64(synd(BLK))`; a non-zero syndrome is no error of the command. -/
def execSynd (s : State) : Result := answer (zext64 (synd s.blk)) s

end Sys2Proof.Machine
end

