-- ==== Sys2Proof/Machine/TimeCode.lean ====
section
/-! DEFINITION. The calendar word `CAL` (R55), the DST tri-state (R56), the functions `encode_fn` (R85) and `decode_fn` (R91), and
the commands `ENCODE`, `DECODE` (43_timecode.md). -/

namespace Sys2Proof.Machine

/-- The three states of a DST flag (R56). -/
inductive Dst where
  | off
  | on
  | unknown
  deriving DecidableEq, Repr

/-- `dst3(d)` (R56): bit 1 makes it unknown, else bit 0 says on or off. -/
def dst3 (d : BitVec 2) : Dst :=
  if d.getLsbD 1 then .unknown else if d.getLsbD 0 then .on else .off

/-- The members of a calendar word (R55). `sec` and the reserved bits are no member here: `ENCODE` ignores them (R79)
and `DECODE` returns them zero (R90). -/
structure Cal where
  /-- minute, `[7:0]` -/
  min : Byte
  /-- hour, `[15:8]` -/
  hour : Byte
  /-- day-of-month, `[23:16]` -/
  mday : Byte
  /-- month, 0-based, `[31:24]` -/
  mon : Byte
  /-- year, `[39:32]` -/
  year : Byte
  /-- weekday, 0 = Sunday, `[42:40]` -/
  wday : BitVec 3
  /-- DST flag of the time itself, `[44:43]` -/
  dst : BitVec 2
  /-- DST flag of the normalized instant one hour later, `[46:45]` -/
  dsta : BitVec 2
  deriving DecidableEq, Repr

/-- The members `ENCODE` reads from `ARG` (R79). -/
def calOfWord (c : Word64) : Cal :=
  { min := c.extractLsb' 0 8
    hour := c.extractLsb' 8 8
    mday := c.extractLsb' 16 8
    mon := c.extractLsb' 24 8
    year := c.extractLsb' 32 8
    wday := c.extractLsb' 40 3
    dst := c.extractLsb' 43 2
    dsta := c.extractLsb' 45 2 }

/-- The `CAL` word with given members, `sec` and every reserved bit zero (R55, R60, R91). -/
def calWord (c : Cal) : Word64 :=
  0x00#8 ++ 0x00#8 ++ 0#1 ++ c.dsta ++ c.dst ++ c.wday ++ c.year ++ c.mon ++ c.mday ++ c.hour ++ c.min

/-! ### Encode -/

/-- The telegram weekday (R80): Sunday 0 becomes 7, every other value passes, 7 included (D18). -/
def dowOf (wday : BitVec 3) : BitVec 3 := if wday = 0 then 7 else wday

/-- `A1` (R81): the two DST states differ, compared as three-valued states (D15). -/
def a1Of (dst dsta : BitVec 2) : BitVec 1 := if dst3 dst ≠ dst3 dsta then 1 else 0

/-- `Z1` (R82): 1 iff the DST flag is on. -/
def z1Of (dst : BitVec 2) : BitVec 1 := if dst3 dst = .on then 1 else 0

/-- `Z2 = 1 - Z1` (R82): off and unknown both give 1. -/
def z2Of (dst : BitVec 2) : BitVec 1 := 1 - z1Of dst

/-- The BCD byte of the telegram month (R83): `mon + 1` without a wrap at 256, then modulo 100 (D16). -/
def monthByte (mon : Byte) : Byte := bcdEnc (BitVec.ofNat 8 ((mon.toNat + 1) % Config.bcdMod))

/-- Step 5 of encode (R83, R85): the six BCD fields, each the low bits of its BCD byte. -/
def writeDateTime (c : Cal) (t : Word64) : Word64 :=
  let t := setField t .min (bcdEnc c.min)
  let t := setField t .hour (bcdEnc c.hour)
  let t := setField t .day (bcdEnc c.mday)
  let t := setField t .dow (bcdEnc ((dowOf c.wday).setWidth 8))
  let t := setField t .mon (monthByte c.mon)
  setField t .year (bcdEnc c.year)

/-- Step 6 of encode (R84, R85): `{P3, P2, P1} <- pcalc(t)`. -/
def writeParity (t : Word64) : Word64 :=
  setField (setField (setField t .p1 (p1c t)) .p2 (p2c t)) .p3 (p3c t)

/-- Steps 1 to 4 of encode (R85): an all-zero telegram with `S = 1`, `A1`, `Z1` and `Z2`. -/
def writeMarkers (c : Cal) : Word64 :=
  let t0 : Word64 := 0
  let t1 := setField t0 .s (1 : BitVec 1)
  let t2 := setField t1 .a1 (a1Of c.dst c.dsta)
  setField (setField t2 .z1 (z1Of c.dst)) .z2 (z2Of c.dst)

/-- `encode_fn(c)` (R85). -/
def encodeFn (c : Word64) : Word64 :=
  let cal := calOfWord c
  writeParity (writeDateTime cal (writeMarkers cal))

/-! ### Decode -/

/-- A BCD field read back as a number: zero-extended to a byte and decoded (R87). -/
def decodeField (b : Word64) (f : Field) : Byte := bcdDec ((getField b f).setWidth 8)

/-- The calendar month (R87): the decoded telegram month minus 1, modulo 256, `0xFF` standing for -1 (D17). -/
def monthOf (b : Word64) : Byte := decodeField b .mon + 255

/-- The calendar weekday (R88): telegram 7 is Sunday 0, every other value passes, 0 included (D18). -/
def wdayOf (b : Word64) : BitVec 3 :=
  let dow : BitVec 3 := (getField b .dow).setWidth 3
  if dow = 7 then 0 else dow

/-- The DST flag (R89): on iff `Z1 = 1`; `Z2`, `A1`, `A2` and `R` are not read. -/
def dstOf (b : Word64) : BitVec 2 := if (getField b .z1).setWidth 1 = 1#1 then 0b01 else 0b00

/-- `decode_fn(b)` (R91). -/
def decodeFn (b : Word64) : Word64 :=
  calWord
    { min := decodeField b .min
      hour := decodeField b .hour
      mday := decodeField b .day
      mon := monthOf b
      year := decodeField b .year
      wday := wdayOf b
      dst := dstOf b
      dsta := 0b00 }

/-! ### The commands -/

/-- `ENCODE` (R86): `BLK <- encode_fn(ARG)`, `RES` the same; the old `BLK` is not read. -/
def execEncode (s : State) : Result := store (encodeFn s.arg) s

/-- `DECODE` (R92): `RES <- decode_fn(BLK)`; it validates nothing (R93). -/
def execDecode (s : State) : Result := answer (decodeFn s.blk) s

end Sys2Proof.Machine
end

