-- ==== Sys2Proof/Machine/Dispatch.lean ====
section
/-! DEFINITION. One arm per command: each calls the meaning of its own rule. -/

namespace Sys2Proof.Machine

def exec (i : Instr) (s : State) : Host.Outcome State Fault Refusal :=
  match i with
  | .clr => Sys2Proof.Machine.execClr s
  | .ldblk => Sys2Proof.Machine.execLdblk s
  | .rdblk => Sys2Proof.Machine.execRdblk s
  | .bcdenc => Sys2Proof.Machine.execBcdenc s
  | .bcddec => Sys2Proof.Machine.execBcddec s
  | .par32 => Sys2Proof.Machine.execPar32 s
  | .pcalc => Sys2Proof.Machine.execPcalc s
  | .synd => Sys2Proof.Machine.execSynd s
  | .encode => Sys2Proof.Machine.execEncode s
  | .decode => Sys2Proof.Machine.execDecode s
  | .getf fsel => Sys2Proof.Machine.execGetf fsel s
  | .setf fsel => Sys2Proof.Machine.execSetf fsel s

end Sys2Proof.Machine
end

