-- ==== Sys2Proof/Machine/Step.lean ====
section
/-! DEFINITION. One step: the host presents its next command and the block executes it, indivisibly (R42, R47); where the host
presents none, the block is idle. -/

namespace Sys2Proof.Machine

/-- The command on the ports, executed: a legal word runs its command, every other word raises `IllegalCommand`
(R52, R53). -/
def execPort (s : State) : Host.Outcome State Fault Refusal :=
  match decode s.cw with
  | .command i => exec i s
  | .illegal _ => raiseIllegal s

/-- One step of the block with its host. -/
def step (s : State) : Host.Outcome State Fault Refusal :=
  match present s with
  | some s' => execPort s'
  | none => idle s

/-- `s` with the command word `w` (`nbits` bits, the rest zero) as the next command the host presents, its operand `ARG`
zero. The block fetches nothing (R17): this stands for the host presenting that command (notes/assumptions/4.md). -/
def State.withFetchWord (s : State) (nbits w : Nat) : State :=
  enqueueFirst { cw := BitVec.ofNat 16 (w % 2 ^ nbits), arg := 0 } s

end Sys2Proof.Machine
end

