-- ==== Sys2Proof/Machine/Asm.lean ====
section
/-! DEFINITION. The assembler lines of R60 as terms and the commands they stand for, with the pseudo-instruction `SPLIT` (R61). The
characters of a line are read in Machine/AsmText.lean. -/

namespace Sys2Proof.Machine

/-- One assembler line (R60, R61). -/
inductive AsmLine where
  | clr
  | ldblk (v : Word64)
  | rdblk
  | bcdenc (v : Byte)
  | bcddec (v : Byte)
  | par32 (v : BitVec 32)
  | pcalc
  | synd
  /-- `ENCODE min=a, …, dst=h, dsta=i`, with `off`, `on`, `unk` as the DST states. -/
  | encodeMembers (min hour mday mon year : Byte) (wday : BitVec 3) (dst dsta : Dst)
  /-- `ENCODE #v`. -/
  | encodeWord (v : Word64)
  | decode
  | getf (f : Field)
  | setf (f : Field) (v : Word64)
  /-- The pseudo-instruction `SPLIT`. -/
  | split
  deriving DecidableEq, Repr

/-- How a DST state is written: `off` `0b00`, `on` `0b01`, `unk` `0b10` (R60). -/
def dstBits : Dst → BitVec 2
  | .off => 0b00
  | .on => 0b01
  | .unknown => 0b10

/-- One command with an ignored operand written as 0 (R60). -/
def plainLine (i : Instr) : Command := ⟨encode i, 0⟩

/-- The 18 commands `GETF 0` .. `GETF 17`, in that order (R61, R98). -/
def split : List Command := Field.all.map fun f => plainLine (.getf f.number)

/-- The commands of a line: the `CW` and `ARG` columns of R60. -/
def assemble : AsmLine → List Command
  | .clr => [plainLine .clr]
  | .ldblk v => [⟨encode .ldblk, v⟩]
  | .rdblk => [plainLine .rdblk]
  | .bcdenc v => [⟨encode .bcdenc, zext64 v⟩]
  | .bcddec v => [⟨encode .bcddec, zext64 v⟩]
  | .par32 v => [⟨encode .par32, zext64 v⟩]
  | .pcalc => [plainLine .pcalc]
  | .synd => [plainLine .synd]
  | .encodeMembers min hour mday mon year wday dst dsta =>
      [⟨encode .encode, calWord ⟨min, hour, mday, mon, year, wday, dstBits dst, dstBits dsta⟩⟩]
  | .encodeWord v => [⟨encode .encode, v⟩]
  | .decode => [plainLine .decode]
  | .getf f => [plainLine (.getf f.number)]
  | .setf f v => [⟨encode (.setf f.number), v⟩]
  | .split => split

end Sys2Proof.Machine
end

