-- ==== Sys2Proof/Machine/HostText.lean ====
section
/-! DEFINITION. Host-side conventions: the hex-text form of a Block (R38 to R41) with the errors of the document's taxonomy that
concern it (R105 to R107), and the rendering of a FieldView (R100, R101). They are no operations of the block
(R4 (h), D33): no command reaches them and no step uses them. -/

namespace Sys2Proof.Machine

/-- The errors of the text functions (R105, R106, R107). `NullArgument` has no counterpart (R108). -/
inductive TextError where
  | invalidLength
  | invalidDigit
  | insufficientCapacity
  deriving DecidableEq, Repr

/-- The upper-case hexadecimal digit of a 4-bit value (R40). -/
def hexDigit (n : BitVec 4) : Char :=
  if n.toNat < 10 then Char.ofNat (48 + n.toNat) else Char.ofNat (55 + n.toNat)

/-- `hexval` of a character, upper or lower case (R38, R39); `none` if it is no hexadecimal digit. -/
def hexVal (c : Char) : Option (BitVec 4) :=
  if 48 ≤ c.toNat ∧ c.toNat ≤ 57 then some (BitVec.ofNat 4 (c.toNat - 48))
  else if 65 ≤ c.toNat ∧ c.toNat ≤ 70 then some (BitVec.ofNat 4 (c.toNat - 55))
  else if 97 ≤ c.toNat ∧ c.toNat ≤ 102 then some (BitVec.ofNat 4 (c.toNat - 87))
  else none

/-- The `n` low hexadecimal digits of `b`, most significant first. -/
def hexDigits (b : Word64) : Nat → List Char
  | 0 => []
  | n + 1 => hexDigit (b.extractLsb' (4 * n) 4) :: hexDigits b n

/-- `toHexText(block)` (R38, R40): 16 upper-case digits, byte 7 first (D22). -/
def toHexText (b : Word64) : List Char := hexDigits b Config.hexTextChars

/-- `toHexText` into a null-terminated destination of given capacity: at least 17 characters (R40, R107). -/
def toHexTextInto (capacity : Nat) (b : Word64) : Except TextError (List Char) :=
  if Config.hexTextChars + 1 ≤ capacity then .ok (toHexText b) else .error .insufficientCapacity

/-- Reading digits from the most significant on; the first character that is no digit is an error. -/
def readHex (acc : Word64) : List Char → Except TextError Word64
  | [] => .ok acc
  | c :: cs =>
    match hexVal c with
    | some v => readHex ((acc <<< 4) ||| v.setWidth 64) cs
    | none => .error .invalidDigit

/-- `fromHexText(text)` (R38, R39), with the explicit digit check of the rule. The spec gives the two errors no order; for a
text with both faults the model checks the length first: DESIGN CHOICE (notes/assumptions/14.md). -/
def fromHexText (text : List Char) : Except TextError Word64 :=
  if text.length ≠ Config.hexTextChars then .error .invalidLength else readHex 0 text

/-- The binary-digit string of a field (R100): `wid(f)` characters, least significant first. -/
def fieldDigits (b : Word64) (f : Field) : List Char :=
  (List.range f.wid).map fun k => if (getField b f).getLsbD k then '1' else '0'

/-- The lower-case hexadecimal digit of a 4-bit value (R101). -/
def lowerHexDigit (n : BitVec 4) : Char :=
  if n.toNat < 10 then Char.ofNat (48 + n.toNat) else Char.ofNat (87 + n.toNat)

/-- The hexadecimal string of a field (R101): the value of the field in lower case, most significant digit first. The
document gives neither the number of digits nor whether leading zeros are printed, so the number is an argument; nor
does it say whether a prefix such as `0x` stands before them (N10), and the model writes none: DESIGN CHOICE
(notes/assumptions/10.md). -/
def fieldHex (digits : Nat) (b : Word64) (f : Field) : List Char :=
  (List.range digits).reverse.map fun k => lowerHexDigit ((getField b f).extractLsb' (4 * k) 4)

/-- The field's name (R101): the "name" column of R27. The literal string is not in the source (N11): DESIGN CHOICE
(notes/assumptions/10.md). -/
def fieldName : Field → String
  | .m => "M"
  | .civ => "civil-info (weather/ciphertext)"
  | .r => "R"
  | .a1 => "A1"
  | .z1 => "Z1"
  | .z2 => "Z2"
  | .a2 => "A2"
  | .s => "S"
  | .min => "minute"
  | .p1 => "P1"
  | .hour => "hour"
  | .p2 => "P2"
  | .day => "dayOfMonth"
  | .dow => "dayOfWeek"
  | .mon => "month"
  | .year => "year"
  | .p3 => "P3"
  | .mm => "MM"

/-- The field's description (R101): the document's Semantics column as R27 quotes it. The literal string is not in the
source (N11): DESIGN CHOICE (notes/assumptions/10.md). -/
def fieldDescription : Field → String
  | .m => "Start-of-minute marker; always 0"
  | .civ => "Opaque payload, not interpreted"
  | .r => "Abnormal transmitter operation flag"
  | .a1 => "DST-change-announcement flag"
  | .z1 => "CEST (summer time) in effect"
  | .z2 => "CET (standard time) in effect"
  | .a2 => "Leap-second announcement"
  | .s => "Start-of-encoded-time marker; always 1"
  | .min => "BCD 00–59 + parity bit at 28"
  | .p1 => "Even parity over minute field"
  | .hour => "BCD 00–23 + parity bit at 35"
  | .p2 => "Even parity over hour field"
  | .day => "BCD 01–31"
  | .dow => "1=Monday .. 7=Sunday"
  | .mon => "BCD 01–12"
  | .year => "BCD 00–99 (within century)"
  | .p3 => "Even parity over dayOfMonth+dayOfWeek+month+year"
  | .mm => "Minute-mark slot; unmodulated, always 0"

/-- A FieldView (R100, R101): the diagnostic projection of one field of a Block, with the digit count of its
hexadecimal string given. -/
structure FieldView where
  digits : List Char
  hex : List Char
  name : String
  description : String
  deriving DecidableEq, Repr

/-- `splitFields(block)` as text (R98, R100, R101): the 18 views in the fixed order. -/
def fieldViews (hexLength : Field → Nat) (b : Word64) : List FieldView :=
  Field.all.map fun f => ⟨fieldDigits b f, fieldHex (hexLength f) b f, fieldName f, fieldDescription f⟩

end Sys2Proof.Machine
end

