-- ==== Sys2Proof/Machine/AsmText.lean ====
section
/-! DEFINITION. The assembler lines of R60 and R61 as characters: reading a line, and the `CW / ARG` pair of a listing. Host-side:
no command sees a character. Where blanks may stand is the model's choice (notes/assumptions/11.md). -/

namespace Sys2Proof.Machine

/-- The field id of R27. -/
def fieldId : Field → List Char
  | .m => "M".toList
  | .civ => "CIV".toList
  | .r => "R".toList
  | .a1 => "A1".toList
  | .z1 => "Z1".toList
  | .z2 => "Z2".toList
  | .a2 => "A2".toList
  | .s => "S".toList
  | .min => "MIN".toList
  | .p1 => "P1".toList
  | .hour => "HOUR".toList
  | .p2 => "P2".toList
  | .day => "DAY".toList
  | .dow => "DOW".toList
  | .mon => "MON".toList
  | .year => "YEAR".toList
  | .p3 => "P3".toList
  | .mm => "MM".toList

/-- Digits of a numeral in base 10 or 16, most significant first. -/
def readDigits (base acc : Nat) : List Char → Option Nat
  | [] => some acc
  | c :: cs =>
    match hexVal c with
    | some d => if d.toNat < base then readDigits base (base * acc + d.toNat) cs else none
    | none => none

/-- "Numerals are decimal, or hexadecimal with `0x`" (R60). -/
def numeral : List Char → Option Nat
  | '0' :: 'x' :: c :: cs => readDigits 16 0 (c :: cs)
  | c :: cs => readDigits 10 0 (c :: cs)
  | [] => none

/-- A numeral that fits `w` bits. -/
def numeralOf (w : Nat) (text : List Char) : Option (BitVec w) :=
  match numeral text with
  | some v => if v < 2 ^ w then some (BitVec.ofNat w v) else none
  | none => none

/-- An operand `#v` (R60). -/
def immediate (w : Nat) : List Char → Option (BitVec w)
  | '#' :: cs => numeralOf w cs
  | _ => none

/-- The operand `fld`: a field id, or its number in decimal (R60). -/
def fieldOperand (text : List Char) : Option Field :=
  match Field.all.find? fun f => fieldId f == text with
  | some f => some f
  | none =>
    match readDigits 10 0 text with
    | some n => if text = [] then none else Field.all[n]?
    | none => none

/-- `off`, `on`, `unk` (R60). -/
def dstOperand (text : List Char) : Option Dst :=
  if text = "off".toList then some .off
  else if text = "on".toList then some .on
  else if text = "unk".toList then some .unknown
  else none

/-- The text after a given prefix. -/
def afterPrefix : List Char → List Char → Option (List Char)
  | [], text => some text
  | _ :: _, [] => none
  | p :: ps, c :: cs => if p = c then afterPrefix ps cs else none

/-- An operand `key=value` (R60). -/
def keyed {α : Type} (key : String) (read : List Char → Option α) (text : List Char) : Option α :=
  (afterPrefix (key.toList ++ ['=']) text).bind read

/-- The eight operands of `ENCODE` by member, in the order of R60. -/
def encodeOperands : List (List Char) → Option AsmLine
  | [a, b, c, d, e, g, h, i] => do
    let min ← keyed "min" (numeralOf 8) a
    let hour ← keyed "hour" (numeralOf 8) b
    let mday ← keyed "mday" (numeralOf 8) c
    let mon ← keyed "mon" (numeralOf 8) d
    let year ← keyed "year" (numeralOf 8) e
    let wday ← keyed "wday" (numeralOf 3) g
    let dst ← keyed "dst" dstOperand h
    let dsta ← keyed "dsta" dstOperand i
    return .encodeMembers min hour mday mon year wday dst dsta
  | _ => none

/-- The characters up to the first `sep`, and those after it if there is one. -/
def cutAt (sep : Char) : List Char → List Char × Option (List Char)
  | [] => ([], none)
  | c :: cs =>
    if c = sep then ([], some cs)
    else (c :: (cutAt sep cs).1, (cutAt sep cs).2)

/-- The pieces of a text between commas. -/
def pieces : List Char → List (List Char)
  | [] => [[]]
  | c :: cs =>
    match c, pieces cs with
    | ',', ps => [] :: ps
    | _, p :: ps => (c :: p) :: ps
    | _, [] => [[c]]

/-- A text without the blanks before and after it. -/
def trimBlanks (text : List Char) : List Char :=
  ((text.dropWhile (· == ' ')).reverse.dropWhile (· == ' ')).reverse

/-- A line as its mnemonic and its operands (R60). -/
def splitLine (text : List Char) : List Char × List (List Char) :=
  match cutAt ' ' (trimBlanks text) with
  | (name, none) => (name, [])
  | (name, some rest) => (name, (pieces rest).map trimBlanks)

/-- One assembler line, by its mnemonic and operands (R60, R61); `none` if it is none. -/
def readOperands (name : List Char) (operands : List (List Char)) : Option AsmLine :=
  if name = "CLR".toList then if operands = [] then some .clr else none
  else if name = "RDBLK".toList then if operands = [] then some .rdblk else none
  else if name = "PCALC".toList then if operands = [] then some .pcalc else none
  else if name = "SYND".toList then if operands = [] then some .synd else none
  else if name = "DECODE".toList then if operands = [] then some .decode else none
  else if name = "SPLIT".toList then if operands = [] then some .split else none
  else if name = "ENCODE".toList then
    match operands with
    | [v] => (immediate 64 v).map .encodeWord
    | _ => encodeOperands operands
  else if name = "SETF".toList then
    match operands with
    | [fld, v] => (fieldOperand fld).bind fun f => (immediate 64 v).map (.setf f)
    | _ => none
  else
    match operands with
    | [v] =>
      if name = "LDBLK".toList then (immediate 64 v).map .ldblk
      else if name = "BCDENC".toList then (immediate 8 v).map .bcdenc
      else if name = "BCDDEC".toList then (immediate 8 v).map .bcddec
      else if name = "PAR32".toList then (immediate 32 v).map .par32
      else if name = "GETF".toList then (fieldOperand v).map .getf
      else none
    | _ => none

/-- Reading one assembler line (R60). -/
def readLine (text : List Char) : Option AsmLine :=
  readOperands (splitLine text).1 (splitLine text).2

/-- A command in a listing: the pair `CW / ARG` in hexadecimal, 4 and 16 digits (R60). -/
def listing (c : Command) : List Char :=
  hexDigits (zext64 c.cw) 4 ++ " / ".toList ++ hexDigits c.arg 16

end Sys2Proof.Machine
end

