-- ==== Sys2Proof/Safety.lean ====
section
/-! DEFINITION. What the statements call good: a block the Converter produced (R36, R95), a run whose commands keep it so (R22), a
response of the right shape (R50), and the words for who writes `BLK` and what of `ARG` a command uses. -/

namespace Sys2Proof.Machine

/-- The content invariants of a block that `ENCODE` produced (R36, R95): the markers, exactly one of `Z1`, `Z2`, the
fields nothing writes, the reserved bits, a weekday that is not 0, and consistent parity. -/
structure Produced (b : Word64) : Prop where
  m_zero : (getField b .m).setWidth 1 = 0#1
  mm_zero : (getField b .mm).setWidth 1 = 0#1
  s_one : (getField b .s).setWidth 1 = 1#1
  z1_xor_z2 : (getField b .z1).setWidth 1 ^^^ (getField b .z2).setWidth 1 = 1#1
  civ_zero : (getField b .civ).setWidth 14 = 0#14
  r_zero : (getField b .r).setWidth 1 = 0#1
  a2_zero : (getField b .a2).setWidth 1 = 0#1
  reserved_zero : b.extractLsb' 60 4 = 0
  dow_nonzero : (getField b .dow).setWidth 3 ≠ 0#3
  parity_consistent : synd b = 0

/-- The commands that write `BLK` (R15, R22). -/
def WritesBlk : Instr → Prop
  | .clr | .ldblk | .encode | .setf _ => True
  | .rdblk | .bcdenc | .bcddec | .par32 | .pcalc | .synd | .decode | .getf _ => False

/-- The commands that put operand data into `BLK` unchecked (R15): `LDBLK` and `SETF`. -/
def StoresOperand : Instr → Prop
  | .ldblk | .setf _ => True
  | .clr | .rdblk | .bcdenc | .bcddec | .par32 | .pcalc | .synd | .encode | .decode | .getf _ => False

/-- The lifecycle of a Block that only `CLR` and `ENCODE` touch (R22): `BLK` is empty or produced, and the host has no
`LDBLK` or `SETF` yet to present. -/
def Lifecycle (s : State) : Prop :=
  (s.blk = 0 ∨ Produced s.blk) ∧
  ∀ c ∈ s.pending, ∀ i, decode c.cw = .command i → ¬ StoresOperand i

/-- Every response the host was given has the shape of R50: with `ST = 1` the result is 0. -/
def ResponsesWellFormed (s : State) : Prop := ∀ r ∈ s.responses, r.st = .illegal → r.res = 0

/-- The bits of `ARG` a command uses (R49): every other bit is ignored. -/
def usedArgBits : Instr → Word64
  | .clr | .rdblk | .pcalc | .synd | .decode | .getf _ => 0
  | .ldblk => 0xFFFFFFFFFFFFFFFF
  | .bcdenc | .bcddec => 0xFF
  | .par32 => 0xFFFFFFFF
  | .encode => 0x7FFFFFFFFFFF
  | .setf fsel =>
    match fieldOf fsel with
    | some f => (BitVec.allOnes f.wid).setWidth 64
    | none => 0

/-- How many of the stream positions `lo..lo+len-1` of `b` are 1. -/
def onesIn (b : Word64) (lo len : Nat) : Nat := (List.range len).countP fun k => b.getLsbD (lo + k)

/-- The document's sum of the four parities of the date group modulo 2 (R74): day-of-month, day-of-week, month, year. -/
def dateParity (b : Word64) : Nat :=
  (onesIn b 36 6 % 2 + onesIn b 42 3 % 2 + onesIn b 45 5 % 2 + onesIn b 50 8 % 2) % 2

/-- The four ways of R53 and R104 in which a command word is reserved or illegal. -/
abbrev ReservedOrIllegal (cw : CmdWord) : Prop :=
  0xC#4 ≤ cw.extractLsb' 12 4 ∨
  cw.extractLsb' 5 7 ≠ 0#7 ∨
  (cw.extractLsb' 12 4 ≤ 0x9#4 ∧ cw.extractLsb' 0 5 ≠ 0#5) ∨
  ((cw.extractLsb' 12 4 = 0xA#4 ∨ cw.extractLsb' 12 4 = 0xB#4) ∧ 18 ≤ (cw.extractLsb' 0 5).toNat)

end Sys2Proof.Machine
end

