-- ==== Sys2Proof/Certificates/Slice0/Obligations.lean ====
section
/-! DEFINITION. The statements for the provers. Each docstring names the rules of spec/ it formalises. Numbers are written out
from the rules, not through the model's own functions, wherever a rule gives a formula. -/

open Sys2Proof Sys2Proof.Machine

/-! ### Encoding -/

/-- R48, R51, R52: decoding the command word of a well-formed instruction gives it back, every field selector at every
legal value included. -/
def Obligations.DecodeOfEncodeIsTheInstruction : Prop :=
  ∀ i : Instr, i.wellFormed = true → decode (encode i) = .command i

/-- R47, R48, R52: a command word the decoder reads as an instruction is that instruction's word: each legal word has one
meaning and no bit of it is dropped. -/
def Obligations.EncodeOfDecodeIsTheWord : Prop :=
  ∀ (cw : CmdWord) (i : Instr), decode cw = .command i → i.wellFormed = true ∧ encode i = cw

/-- R52: the decoder reads a command exactly from the words the legality formula names, and there are exactly 46 of
them. -/
def Obligations.LegalWordsAreExactlyFortySix : Prop :=
  (∀ cw : CmdWord, (∃ i, decode cw = .command i) ↔
    ((cw.extractLsb' 12 4 ≤ 0x9#4 ∧ cw.extractLsb' 0 12 = 0#12) ∨
     ((cw.extractLsb' 12 4 = 0xA#4 ∨ cw.extractLsb' 12 4 = 0xB#4) ∧
       cw.extractLsb' 5 7 = 0#7 ∧ (cw.extractLsb' 0 5).toNat ≤ 17))) ∧
  ∃ words : List CmdWord, words.length = 46 ∧ words.Nodup ∧
    ∀ cw, cw ∈ words ↔ ∃ i, decode cw = .command i

/-- R51: the opcode map by match and mask agrees with the decoder: a word meets a row exactly when the decoder reads
that row's mnemonic; there are 12 rows; a word that meets no row is illegal. -/
def Obligations.OpcodeTableAcceptsWhatTheDecoderReads : Prop :=
  opcodeTable.length = 12 ∧
  (∀ cw : CmdWord, ∀ row ∈ opcodeTable,
    row.Accepts cw ↔ ∃ i, decode cw = .command i ∧ mnemonic i = row.mnemonic) ∧
  ∀ cw : CmdWord, (∀ row ∈ opcodeTable, ¬ row.Accepts cw) ↔ ∃ why, decode cw = .illegal why

/-- R48, R51: words written out bit by bit from the format, one of every family and both ends of the selector's range,
decode to the commands they stand for. -/
def Obligations.WrittenWordsDecode : Prop :=
  decode 0b0000000000000000#16 = .command .clr ∧
  decode 0b0001000000000000#16 = .command .ldblk ∧
  decode 0b0010000000000000#16 = .command .rdblk ∧
  decode 0b0011000000000000#16 = .command .bcdenc ∧
  decode 0b0100000000000000#16 = .command .bcddec ∧
  decode 0b0101000000000000#16 = .command .par32 ∧
  decode 0b0110000000000000#16 = .command .pcalc ∧
  decode 0b0111000000000000#16 = .command .synd ∧
  decode 0b1000000000000000#16 = .command .encode ∧
  decode 0b1001000000000000#16 = .command .decode ∧
  decode 0b1010000000000000#16 = .command (.getf 0) ∧
  decode 0b1010000000010001#16 = .command (.getf 17) ∧
  decode 0b1011000000001000#16 = .command (.setf 8) ∧
  decode 0b1011000000010001#16 = .command (.setf 17)

/-! ### The step -/

/-- R42, R47, R52: with a legal command presented, the step is `exec` of the decoded instruction on the state whose
ports carry that command and whose host has one command fewer to present. That a command list stands in the state is
the model's choice (notes/assumptions/1.md). -/
def Obligations.StepRunsTheDecodedCommand : Prop :=
  ∀ (s : State) (c : Command) (cs : List Command) (i : Instr),
    s.pending = c :: cs → decode c.cw = .command i →
    step s = exec i { s with cw := c.cw, arg := c.arg, pending := cs }

/-- R47: the step is a total function of `BLK`, `CW` and `ARG` alone: one function gives the new `BLK`, `RES` and `ST` of
every command in every state, whatever the ports held, whatever else the host has yet to present and whatever it was
given before. -/
def Obligations.StepIsATotalFunctionOfBlkCwArg : Prop :=
  ∃ f : Word64 → CmdWord → Word64 → Word64 × Word64 × Status,
    ∀ (s : State) (c : Command) (cs : List Command), s.pending = c :: cs →
      step s = .next
        { blk := (f s.blk c.cw c.arg).1
          cw := c.cw
          arg := c.arg
          pending := cs
          responses := s.responses ++ [⟨(f s.blk c.cw c.arg).2.1, (f s.blk c.cw c.arg).2.2⟩] }

/-- R110, R115: where the host presents no command the block is idle: nothing changes. That such a moment is a step of
the model is the model's choice (notes/assumptions/3.md). -/
def Obligations.IdleWhenNoCommandIsPresented : Prop :=
  ∀ s : State, s.pending = [] → step s = .next s

/-- R53: the four ways a command word can be reserved or illegal are exactly the words that are not legal, and each such
word raises `IllegalCommand`, whatever the operand: none is a no-op that reports `OK`. -/
def Obligations.ReservedAndIllegalWordsRaise : Prop :=
  (∀ cw : CmdWord, ReservedOrIllegal cw ↔ ¬ Legal cw) ∧
  ∀ (s : State) (c : Command) (cs : List Command), s.pending = c :: cs → ReservedOrIllegal c.cw →
    step s = .next { s with cw := c.cw, arg := c.arg, pending := cs, responses := s.responses ++ [⟨0, .illegal⟩] }

/-- R103: `IllegalCommand` is reported iff the word is not legal; then `ST = 1`, `RES = 0`, `BLK` is unchanged, nothing
else is recorded, and the next command does what it would have done without the illegal one. The cause codes are those
of the rule. -/
def Obligations.IllegalCommandIffWordNotLegal : Prop :=
  Status.code .ok = 0 ∧ Status.code .illegal = 1 ∧
  ∀ (s : State) (c : Command) (cs : List Command), s.pending = c :: cs →
    ∃ t r, step s = .next t ∧ t.responses = s.responses ++ [r] ∧
      (r.st = .illegal ↔ ¬ Legal c.cw) ∧
      (¬ Legal c.cw →
        t = { s with cw := c.cw, arg := c.arg, pending := cs, responses := s.responses ++ [⟨0, .illegal⟩] } ∧
        ∀ c₂ cs₂, cs = c₂ :: cs₂ →
          ∃ u v q, step t = .next u ∧ step { s with pending := cs } = .next v ∧
            u.blk = v.blk ∧ u.responses = t.responses ++ [q] ∧ v.responses = s.responses ++ [q])

/-- R124, R125: from every state the list of pending commands runs to its end, one step a command, with one response
each and the earlier responses kept; no run ends in a fault or a refusal. The pending list and the list of responses are
the model's own fields (notes/assumptions/1.md); that no step faults is its notes/assumptions/5.md. -/
def Obligations.EveryCommandListRunsToItsEnd : Prop :=
  ∀ s : State, ∃ t : State,
    Host.Core.run Sys2Proof.core s.pending.length s = .next t ∧ t.pending = [] ∧
    ∃ rs : List Response, rs.length = s.pending.length ∧ t.responses = s.responses ++ rs

/-- R15, R22: the frame of every command. The ports and the list of pending commands stay, one response is added after
the earlier ones, and only `CLR`, `LDBLK`, `ENCODE` and `SETF` may change `BLK`. -/
def Obligations.OnlyFourCommandsChangeBlk : Prop :=
  ∀ (i : Instr) (s t : State), exec i s = .next t →
    t.cw = s.cw ∧ t.arg = s.arg ∧ t.pending = s.pending ∧ (∃ r, t.responses = s.responses ++ [r]) ∧
    (t.blk ≠ s.blk → i = .clr ∨ i = .ldblk ∨ i = .encode ∨ ∃ fsel, i = .setf fsel)

/-! ### The commands, each with its next state -/

/-- R63: `CLR`. -/
def Obligations.ClrEmptiesTheBlock : Prop :=
  encode .clr = 0x0000#16 ∧
  (∀ s : State, exec .clr s = .next { s with blk := 0, responses := s.responses ++ [⟨0, .ok⟩] }) ∧
  State.reset.blk = 0

/-- R64: `LDBLK`; every bit of `ARG` is kept, so a following `RDBLK` returns it. -/
def Obligations.LdblkStoresTheOperand : Prop :=
  encode .ldblk = 0x1000#16 ∧
  ∀ s : State, ∃ t,
    exec .ldblk s = .next t ∧ t = { s with blk := s.arg, responses := s.responses ++ [⟨s.arg, .ok⟩] } ∧
    exec .rdblk t = .next { t with responses := t.responses ++ [⟨s.arg, .ok⟩] }

/-- R65: `RDBLK`. -/
def Obligations.RdblkReturnsTheBlock : Prop :=
  encode .rdblk = 0x2000#16 ∧
  ∀ s : State, exec .rdblk s = .next { s with responses := s.responses ++ [⟨s.blk, .ok⟩] }

/-- R66, R67: `BCDENC`: tens digit of the value modulo 100 in bits 7..4, units digit in bits 3..0. -/
def Obligations.BcdencReturnsTwoDigits : Prop :=
  encode .bcdenc = 0x3000#16 ∧
  ∀ s : State, exec .bcdenc s = .next { s with responses := s.responses ++
    [⟨BitVec.ofNat 64 (16 * (s.arg.toNat % 256 % 100 / 10) + s.arg.toNat % 256 % 100 % 10), .ok⟩] }

/-- R68, R69: `BCDDEC`: ten times the high nibble plus the low nibble, for every byte. -/
def Obligations.BcddecReturnsTenTimesTensPlusUnits : Prop :=
  encode .bcddec = 0x4000#16 ∧
  ∀ s : State, exec .bcddec s = .next { s with responses := s.responses ++
    [⟨BitVec.ofNat 64 (10 * (s.arg.toNat % 256 / 16) + s.arg.toNat % 16), .ok⟩] }

/-- R72, R73: `PAR32`: the count of ones among `ARG[31:0]`, modulo 2. -/
def Obligations.Par32ReturnsParityOfLowWord : Prop :=
  encode .par32 = 0x5000#16 ∧
  ∀ s : State, exec .par32 s = .next { s with responses := s.responses ++
    [⟨BitVec.ofNat 64 (onesIn s.arg 0 32 % 2), .ok⟩] }

/-- R74, R75: `PCALC`: the parity of the minute field (positions 21..27) in bit 0, of the hour field (29..34) in bit 1,
and the sum of the four date parities modulo 2 in bit 2; nothing is stored. -/
def Obligations.PcalcReturnsTheThreeGroupParities : Prop :=
  encode .pcalc = 0x6000#16 ∧
  ∀ s : State, exec .pcalc s = .next { s with responses := s.responses ++
    [⟨BitVec.ofNat 64 (onesIn s.blk 21 7 % 2 + 2 * (onesIn s.blk 29 6 % 2) + 4 * dateParity s.blk), .ok⟩] }

/-- R76, R77: `SYND`: each recomputed parity against the stored bit at position 28, 35 or 58, in bits 0, 1 and 2; a
non-zero syndrome is no error. -/
def Obligations.SyndReturnsTheThreeGroupSyndromes : Prop :=
  encode .synd = 0x7000#16 ∧
  ∀ s : State, exec .synd s = .next { s with responses := s.responses ++
    [⟨BitVec.ofNat 64
      ((onesIn s.blk 21 7 + (s.blk.getLsbD 28).toNat) % 2 +
       2 * ((onesIn s.blk 29 6 + (s.blk.getLsbD 35).toNat) % 2) +
       4 * ((dateParity s.blk + (s.blk.getLsbD 58).toNat) % 2)), .ok⟩] }

/-- R80, R82 to R86: `ENCODE` field by field: all 18 fields and the reserved bits of the new `BLK`, from the members of
`ARG`. `bcd` is the two-digit code of R66. -/
def Obligations.EncodeWritesEveryField : Prop :=
  encode .encode = 0x8000#16 ∧
  ∀ s : State, ∃ b : Word64,
    exec .encode s = .next { s with blk := b, responses := s.responses ++ [⟨b, .ok⟩] } ∧
    let bcd := fun v : Nat => 16 * (v % 100 / 10) + v % 100 % 10
    let mem := fun lo len : Nat => (s.arg.extractLsb' lo len).toNat
    let fld := fun f : Field => (getField b f).toNat
    fld .m = 0 ∧ fld .civ = 0 ∧ fld .r = 0 ∧ fld .a2 = 0 ∧ fld .s = 1 ∧ fld .mm = 0 ∧
    b.extractLsb' 60 4 = 0 ∧
    fld .a1 = (if dst3 (s.arg.extractLsb' 43 2) = dst3 (s.arg.extractLsb' 45 2) then 0 else 1) ∧
    fld .z1 = (if s.arg.extractLsb' 43 2 = 0b01#2 then 1 else 0) ∧
    fld .z2 = 1 - fld .z1 ∧
    fld .min = bcd (mem 0 8) % 128 ∧
    fld .hour = bcd (mem 8 8) % 64 ∧
    fld .day = bcd (mem 16 8) % 64 ∧
    fld .dow = (if mem 40 3 = 0 then 7 else mem 40 3) ∧
    fld .mon = bcd (mem 24 8 + 1) % 32 ∧
    fld .year = bcd (mem 32 8) ∧
    fld .p1 = onesIn b 21 7 % 2 ∧
    fld .p2 = onesIn b 29 6 % 2 ∧
    fld .p3 = dateParity b

/-- R87 to R92: `DECODE` member by member, for every `BLK`: all 64 bits of the result. -/
def Obligations.DecodeReturnsEveryMember : Prop :=
  encode .decode = 0x9000#16 ∧
  ∀ s : State, ∃ r : Word64,
    exec .decode s = .next { s with responses := s.responses ++ [⟨r, .ok⟩] } ∧
    let num := fun f : Field => 10 * ((getField s.blk f).toNat / 16) + (getField s.blk f).toNat % 16
    let mem := fun lo len : Nat => (r.extractLsb' lo len).toNat
    mem 0 8 = num .min ∧
    mem 8 8 = num .hour ∧
    mem 16 8 = num .day ∧
    mem 24 8 = (if (getField s.blk .mon).toNat = 0 then 255 else num .mon - 1) ∧
    mem 32 8 = num .year ∧
    mem 40 3 = (if (getField s.blk .dow).toNat = 7 then 0 else (getField s.blk .dow).toNat) ∧
    mem 43 2 = (if (getField s.blk .z1).toNat = 1 then 1 else 0) ∧
    mem 45 19 = 0

/-- R31, R96: `GETF f` for every field; and a presented word of that opcode raises `IllegalCommand` iff its selector is
above 17 or its `ZERO` field is not 0. The clause in between, that `exec` of a term whose selector is above 17 answers
`IllegalCommand`, is the model's (DEDUCED, notes/assumptions/7.md): no word decodes to such a term. -/
def Obligations.GetfReturnsTheField : Prop :=
  (∀ f : Field, encode (.getf f.number) = 0xA000#16 + f.number.setWidth 16 ∧
    ∀ s : State, exec (.getf f.number) s = .next { s with responses := s.responses ++
      [⟨BitVec.ofNat 64 (s.blk.toNat / 2 ^ f.off % 2 ^ f.wid), .ok⟩] }) ∧
  (∀ (fsel : BitVec 5) (s : State), 18 ≤ fsel.toNat →
    exec (.getf fsel) s = .next { s with responses := s.responses ++ [⟨0, .illegal⟩] }) ∧
  ∀ (s : State) (c : Command) (cs : List Command), s.pending = c :: cs → c.cw.extractLsb' 12 4 = 0xA#4 →
    ∃ t r, step s = .next t ∧ t.responses = s.responses ++ [r] ∧
      (r.st = .illegal ↔ 18 ≤ (c.cw.extractLsb' 0 5).toNat ∨ c.cw.extractLsb' 5 7 ≠ 0#7)

/-- R32, R97: `SETF f` for every field, bit by bit: the field takes the low bits of `ARG`, every other bit of `BLK` is
kept; and a presented word of that opcode raises `IllegalCommand` iff its selector is above 17 or its `ZERO` field is
not 0. The clause in between, that `exec` of a term whose selector is above 17 answers `IllegalCommand`, is the model's
(DEDUCED, notes/assumptions/7.md): no word decodes to such a term. -/
def Obligations.SetfWritesTheFieldOnly : Prop :=
  (∀ f : Field, encode (.setf f.number) = 0xB000#16 + f.number.setWidth 16 ∧
    ∀ s : State, ∃ b : Word64,
      exec (.setf f.number) s = .next { s with blk := b, responses := s.responses ++ [⟨b, .ok⟩] } ∧
      ∀ k < 64, b.getLsbD k =
        if f.off ≤ k ∧ k < f.off + f.wid then s.arg.getLsbD (k - f.off) else s.blk.getLsbD k) ∧
  (∀ (fsel : BitVec 5) (s : State), 18 ≤ fsel.toNat →
    exec (.setf fsel) s = .next { s with responses := s.responses ++ [⟨0, .illegal⟩] }) ∧
  ∀ (s : State) (c : Command) (cs : List Command), s.pending = c :: cs → c.cw.extractLsb' 12 4 = 0xB#4 →
    ∃ t r, step s = .next t ∧ t.responses = s.responses ++ [r] ∧
      (r.st = .illegal ↔ 18 ≤ (c.cw.extractLsb' 0 5).toNat ∨ c.cw.extractLsb' 5 7 ≠ 0#7)

/-! ### Whole-machine rules over the commands -/

/-- R49: the bits of `ARG` a command does not use do not change the new `BLK`, `RES` or `ST`. -/
def Obligations.IgnoredOperandBitsDoNotMatter : Prop :=
  ∀ (i : Instr) (s : State) (a : Word64),
    a &&& usedArgBits i = s.arg &&& usedArgBits i →
    ∃ t, exec i s = .next t ∧ exec i { s with arg := a } = .next { t with arg := a }

/-- R34: every command is idempotent: issued again at once with the same `ARG` it leaves the same `BLK` and gives the
same response. -/
def Obligations.CommandsAreIdempotent : Prop :=
  ∀ (i : Instr) (s : State), ∃ t u r,
    exec i s = .next t ∧ exec i t = .next u ∧ u.blk = t.blk ∧
    t.responses = s.responses ++ [r] ∧ u.responses = t.responses ++ [r]

/-- R29: bits 60..63. `LDBLK` stores them as given, `RDBLK` returns them as stored, `CLR` and `ENCODE` set them to 0, no
other command changes them; and no command interprets them: what `GETF`, `PCALC`, `SYND` and `DECODE` return does not
depend on them. -/
def Obligations.ReservedBitsAreCarriedAndNotInterpreted : Prop :=
  (∀ f : Field, f.off + f.wid ≤ 60) ∧
  (∀ (i : Instr) (s t : State), exec i s = .next t →
    t.blk.extractLsb' 60 4 =
      (if i = .clr ∨ i = .encode then 0
       else if i = .ldblk then s.arg.extractLsb' 60 4
       else s.blk.extractLsb' 60 4)) ∧
  (∀ s : State, exec .rdblk s = .next { s with responses := s.responses ++ [⟨s.blk, .ok⟩] }) ∧
  ∀ (i : Instr) (s : State) (b : Word64), i ≠ .rdblk → (∀ fsel, i ≠ .setf fsel) →
    b.extractLsb' 0 60 = s.blk.extractLsb' 0 60 →
    ∃ t u r, exec i s = .next t ∧ exec i { s with blk := b } = .next u ∧
      t.responses = s.responses ++ [r] ∧ u.responses = s.responses ++ [r]

/-- R91, R93: `DECODE` reads only stream positions 57..36, 34..29, 27..21 and 17: the marker bits, the parity bits and
every other bit are without influence. -/
def Obligations.DecodeReadsOnlyItsFields : Prop :=
  ∀ b b' : Word64,
    (∀ k, (36 ≤ k ∧ k ≤ 57) ∨ (29 ≤ k ∧ k ≤ 34) ∨ (21 ≤ k ∧ k ≤ 27) ∨ k = 17 → b.getLsbD k = b'.getLsbD k) →
    decodeFn b = decodeFn b'

/-- R120: a list of commands none of which writes `BLK` leaves it: all their results describe one Block. -/
def Obligations.CommandsThatDoNotWriteKeepOneBlock : Prop :=
  ∀ s : State, (∀ c ∈ s.pending, ∀ i, decode c.cw = .command i → ¬ WritesBlk i) →
    ∃ t : State, Host.Core.run Sys2Proof.core s.pending.length s = .next t ∧ t.blk = s.blk ∧ t.pending = []

/-- R61, R98: `SPLIT` is the command words `0xA000` to `0xA011` in order, 18 steps that leave `BLK` and answer the values
of fields 0..17. -/
def Obligations.SplitReturnsTheEighteenFields : Prop :=
  (split.map fun c => c.cw) = ((List.range 18).map fun k => BitVec.ofNat 16 (0xA000 + k)) ∧
  ∀ (s : State) (cs : List Command), s.pending = split ++ cs →
    ∃ t : State, Host.Core.run Sys2Proof.core 18 s = .next t ∧ t.blk = s.blk ∧ t.pending = cs ∧
      t.responses = s.responses ++ Field.all.map fun f =>
        ⟨BitVec.ofNat 64 (s.blk.toNat / 2 ^ f.off % 2 ^ f.wid), .ok⟩

/-! ### Fields, bytes and the layout -/

/-- R54: the selector's numbering: 0 `M` to 17 `MM` in the order of the table, every number 0..17 a field, 18..31
none. -/
def Obligations.SelectorsNumberTheFieldsInOrder : Prop :=
  (List.range 18).map (fun k => fieldOf (BitVec.ofNat 5 k)) =
    [some .m, some .civ, some .r, some .a1, some .z1, some .z2, some .a2, some .s, some .min, some .p1, some .hour,
     some .p2, some .day, some .dow, some .mon, some .year, some .p3, some .mm] ∧
  (∀ f : Field, fieldOf f.number = some f ∧ f.number.toNat ≤ 17) ∧
  (∀ fsel : BitVec 5, fsel.toNat ≤ 17 → ∃ f : Field, f.number = fsel) ∧
  ∀ fsel : BitVec 5, 18 ≤ fsel.toNat → fieldOf fsel = none

/-- R28: the 18 fields tile stream positions 0..59. -/
def Obligations.FieldsTileTheStream : Prop :=
  Field.all.length = 18 ∧
  Field.off .m = 0 ∧ Field.off .mm + Field.wid .mm = 60 ∧ (Field.all.map Field.wid).sum = 60 ∧
  (∀ f ∈ Field.all.zip Field.all.tail, Field.off f.2 = Field.off f.1 + Field.wid f.1) ∧
  ∀ i < 60, ∃ f ∈ Field.all, (Field.off f ≤ i ∧ i < Field.off f + Field.wid f) ∧
    ∀ g ∈ Field.all, Field.off g ≤ i ∧ i < Field.off g + Field.wid g → g = f

/-- R98: the field values, each at its offset, add up to the 60 stream bits. -/
def Obligations.FieldsReassembleTheStream : Prop :=
  ∀ b : Word64, (Field.all.map fun f => (getField b f).toNat * 2 ^ f.off).sum = b.toNat % 2 ^ 60

/-- R32: the laws of field insert and extract, with the definition by shift and mask. -/
def Obligations.SetFieldLaws : Prop :=
  ∀ (n : Nat) (b : Word64) (f : Field) (v : BitVec n),
    (let mask : Word64 := BitVec.ofNat 64 ((2 ^ f.wid - 1) * 2 ^ f.off)
     setField b f v = (b &&& ~~~mask) ||| BitVec.ofNat 64 (v.toNat % 2 ^ f.wid * 2 ^ f.off)) ∧
    getField (setField b f v) f = v.setWidth f.wid ∧
    (∀ g, g ≠ f → getField (setField b f v) g = getField b g) ∧
    setField b f (getField b f) = b ∧
    (setField b f v).extractLsb' 60 4 = b.extractLsb' 60 4

/-- R9, R23, R24, R25: stream bit `i` is bit `i mod 8` of byte `i / 8`, and `MemRead` and `MemWrite`, defined for
`a + n <= 8`, take byte `a` least significant and change no other bit. The last clause, that outside that range they
answer none, is the model's (DEDUCED, notes/assumptions/8.md). -/
def Obligations.ByteAndBitOrderOfTheBlock : Prop :=
  (∀ (b : Word64) (i : Fin 60),
    streamBit b i = b.getLsbD i ∧
    streamBit b i = (blockByte b ⟨i / 8, by omega⟩).getLsbD (i % 8)) ∧
  (∀ (b : Word64) (k : Fin 8) (j : Nat), j < 8 → (blockByte b k).getLsbD j = b.getLsbD (8 * k + j)) ∧
  (∀ (b : Word64) (a n : Nat) (v : BitVec (8 * n)), a + n ≤ 8 →
    (∃ r, memRead b a n = some r ∧ ∀ k < 8 * n, r.getLsbD k = b.getLsbD (8 * a + k)) ∧
    ∃ w, memWrite b a n v = some w ∧ ∀ k < 64, w.getLsbD k =
      if 8 * a ≤ k ∧ k < 8 * (a + n) then v.getLsbD (k - 8 * a) else b.getLsbD k) ∧
  ∀ (b : Word64) (a n : Nat) (v : BitVec (8 * n)), 8 < a + n → memRead b a n = none ∧ memWrite b a n v = none

/-- R126: the 64-bit load and store in `MemRead` and `MemWrite` terms. -/
def Obligations.BlockLoadAndStoreAreWholeMemoryAccesses : Prop :=
  ∀ s : State,
    (∃ r : BitVec (8 * 8), memRead s.blk 0 8 = some r ∧
      exec .rdblk s = .next { s with responses := s.responses ++ [⟨r.setWidth 64, .ok⟩] }) ∧
    ∃ w, memWrite s.blk 0 8 (s.arg.setWidth (8 * 8)) = some w ∧
      exec .ldblk s = .next { s with blk := w, responses := s.responses ++ [⟨w, .ok⟩] }

/-! ### BCD and parity -/

/-- R70: the round-trip laws of the BCD functions, with the example that shows their bound. -/
def Obligations.BcdRoundTripLaws : Prop :=
  (∀ v : Byte, (bcdDec (bcdEnc v)).toNat = v.toNat % 100) ∧
  (∀ b : Byte, b.toNat / 16 ≤ 9 → b.toNat % 16 ≤ 9 → bcdEnc (bcdDec b) = b) ∧
  bcdEnc (bcdDec 0x0A) = 0x10

/-- R72: even parity is the count of ones modulo 2, a narrower field counted after zero extension, and it is linear. -/
def Obligations.ParityCountsAndIsLinear : Prop :=
  (∀ x : BitVec 32, (par32 x).toNat = (List.range 32).countP (fun k => x.getLsbD k) % 2) ∧
  (∀ (n : Nat) (y : BitVec n), n ≤ 32 →
    (par32 (y.setWidth 32)).toNat = (List.range n).countP (fun k => y.getLsbD k) % 2) ∧
  ∀ a b : BitVec 32, par32 (a ^^^ b) = par32 a ^^^ par32 b

/-- R78 (a): storing the recomputed parity bits leaves the recomputed bits as they are and makes the syndrome zero, for
every Block. -/
def Obligations.StoringRecomputedParityClearsTheSyndrome : Prop :=
  ∀ b : Word64,
    let b' := setField (setField (setField b .p1 ((pcalc b).extractLsb' 0 1)) .p2 ((pcalc b).extractLsb' 1 1))
      .p3 ((pcalc b).extractLsb' 2 1)
    pcalc b' = pcalc b ∧ synd b' = 0

/-- R78 (b), (c): an error pattern changes each syndrome bit by the parity of its flips inside that group's positions
21..28, 29..35, 36..58; so an odd number of flips in a group shows and an even number does not, and a flip outside
21..58 changes nothing. -/
def Obligations.ErrorPatternsMoveTheSyndromeByGroupParity : Prop :=
  ∀ b e : Word64, synd (b ^^^ e) = synd b ^^^
    BitVec.ofNat 3 (onesIn e 21 8 % 2 + 2 * (onesIn e 29 7 % 2) + 4 * (onesIn e 36 23 % 2))

/-- R99, R122: setting a field that no parity group covers leaves the syndrome as it was; setting a covered field can
make it non-zero. -/
def Obligations.SettingUncoveredFieldsKeepsTheSyndrome : Prop :=
  (∀ (n : Nat) (b : Word64) (v : BitVec n),
    ∀ f ∈ [Field.m, Field.civ, Field.r, Field.a1, Field.z1, Field.z2, Field.a2, Field.s, Field.mm],
      synd (setField b f v) = synd b) ∧
  ∀ f ∈ [Field.min, Field.hour, Field.day, Field.dow, Field.mon, Field.year, Field.p1, Field.p2, Field.p3],
    ∃ b : Word64, synd b = 0 ∧ synd (setField b f 1#1) ≠ 0

/-! ### Time code -/

/-- R95: what holds of every value of `encode_fn`, whatever the operand: markers, exactly one of `Z1` and `Z2`, the
fields never written, the reserved bits, a weekday that is not 0, and a zero syndrome. -/
def Obligations.EveryEncodedBlockIsProduced : Prop := ∀ c : Word64, Produced (encodeFn c)

/-- R37: in calendar range each field holds the whole BCD code, nothing truncated. -/
def Obligations.InCalendarRangeNothingIsTruncated : Prop :=
  ∀ c : Word64,
    let mem := fun lo len : Nat => (c.extractLsb' lo len).toNat
    let fld := fun f : Field => (getField (encodeFn c) f).toNat
    mem 0 8 ≤ 59 → mem 8 8 ≤ 23 → 1 ≤ mem 16 8 → mem 16 8 ≤ 31 → mem 40 3 ≤ 6 → mem 24 8 ≤ 11 → mem 32 8 ≤ 99 →
    fld .min = 16 * (mem 0 8 / 10) + mem 0 8 % 10 ∧
    fld .hour = 16 * (mem 8 8 / 10) + mem 8 8 % 10 ∧
    fld .day = 16 * (mem 16 8 / 10) + mem 16 8 % 10 ∧
    1 ≤ fld .dow ∧ fld .dow ≤ 7 ∧
    fld .mon = 16 * ((mem 24 8 + 1) / 10) + (mem 24 8 + 1) % 10 ∧
    fld .year = 16 * (mem 32 8 / 10) + mem 32 8 % 10

/-- R94: the round trip. `ENCODE` then `DECODE` returns the members as they were within the widest bounds for which no
field truncates, the year reduced modulo 100, an unknown DST flag as off, weekday 7 as 0, `dsta` as 0; so in calendar
range, with a resolved flag and the ignored bits zero, the operand comes back with `dsta` cleared. The last clauses
show that the bounds are the widest. -/
def Obligations.EncodeThenDecodeReturnsTheCalendar : Prop :=
  (∀ s : State,
    let mem := fun lo len : Nat => (s.arg.extractLsb' lo len).toNat
    mem 0 8 ≤ 79 → mem 8 8 ≤ 39 → mem 16 8 ≤ 39 → mem 24 8 ≤ 18 →
    ∃ t u r, exec .encode s = .next t ∧ exec .decode t = .next u ∧
      u.blk = t.blk ∧ u.responses = s.responses ++ [⟨t.blk, .ok⟩, ⟨r, .ok⟩] ∧
      r.extractLsb' 0 32 = s.arg.extractLsb' 0 32 ∧
      (r.extractLsb' 32 8).toNat = mem 32 8 % 100 ∧
      (r.extractLsb' 40 3).toNat = mem 40 3 % 7 ∧
      r.extractLsb' 43 2 = (if s.arg.extractLsb' 43 2 = 0b01#2 then 0b01#2 else 0b00#2) ∧
      r.extractLsb' 45 19 = 0 ∧
      (mem 32 8 ≤ 99 → mem 40 3 ≤ 6 → mem 43 2 ≤ 1 → mem 47 17 = 0 → r = s.arg &&& 0xFFFF9FFFFFFFFFFF)) ∧
  2 ^ 7 ≤ (bcdEnc 80).toNat ∧ 2 ^ 6 ≤ (bcdEnc 40).toNat ∧ 2 ^ 5 ≤ (monthByte 19).toNat

/-- R56: the DST tri-state. -/
def Obligations.DstTriState : Prop :=
  dst3 0b00 = .off ∧ dst3 0b01 = .on ∧ dst3 0b10 = .unknown ∧ dst3 0b11 = .unknown

/-! ### Invariants and reset -/

/-- R22, R36, R95: while the host presents no `LDBLK` and no `SETF`, `BLK` stays empty or a produced block, whatever else
it presents, illegal words included. -/
def Obligations.StepKeepsTheBlockLifecycle : Prop :=
  ∀ s t : State, Lifecycle s → step s = .next t → Lifecycle t

/-- R21, R22: the reset state meets the lifecycle invariant. Its `BLK` half is R21; that the host has nothing pending at
reset, so no `LDBLK` and no `SETF`, is the model's choice (DESIGN CHOICE, notes/assumptions/4.md). -/
def Obligations.ResetMeetsTheBlockLifecycle : Prop := Lifecycle State.reset

/-- R50: every response the host is given has result 0 when its status is 1. -/
def Obligations.StepKeepsResponsesWellFormed : Prop :=
  ∀ s t : State, ResponsesWellFormed s → step s = .next t → ResponsesWellFormed t

/-- R21: after reset `BLK` is zero, field by field and in bits 60..63, and there is no response yet (`responses` is the
model's own field, notes/assumptions/1.md). -/
def Obligations.ResetLeavesTheBlockEmpty : Prop :=
  State.reset.blk = 0x0000000000000000#64 ∧
  (∀ f : Field, getField State.reset.blk f = 0) ∧
  State.reset.blk.extractLsb' 60 4 = 0 ∧
  State.reset.responses = []

/-! ### Host-side conventions -/

/-- R41: the hex-text round trip, for all Block values. -/
def Obligations.HexTextRoundTrip : Prop := ∀ b : Word64, fromHexText (toHexText b) = .ok b

/-- R38, R39: reading hex text: the two errors, and the value with the first character most significant. A digit is one
of 22 characters, upper and lower case alike, and no other. That a text with both faults, a wrong length and a character
that is no digit, is reported as `InvalidLength` is the model's choice (DESIGN CHOICE, notes/assumptions/14.md). -/
def Obligations.FromHexTextChecksAndReads : Prop :=
  (∀ text : List Char,
    (text.length ≠ 16 → fromHexText text = .error .invalidLength) ∧
    (text.length = 16 → (∃ c ∈ text, hexVal c = none) → fromHexText text = .error .invalidDigit) ∧
    ∀ ds : List (BitVec 4), text.length = 16 → text.map hexVal = ds.map some →
      fromHexText text = .ok (BitVec.ofNat 64 (ds.foldl (fun acc d => 16 * acc + d.toNat) 0))) ∧
  "0123456789ABCDEF".toList.map hexVal = ((List.range 16).map fun k => some (BitVec.ofNat 4 k)) ∧
  "abcdef".toList.map hexVal = ((List.range 6).map fun k => some (BitVec.ofNat 4 (10 + k))) ∧
  ∀ c : Char, hexVal c = none ↔ c ∉ "0123456789ABCDEFabcdef".toList

/-- R60, R61: every command of every assembler line is a legal command word, and the `CW` and `ARG` columns of every row
of the table, with the pseudo-instruction. The numerals `v` stand at the width of their operand and are zero-extended;
an operand the table calls ignored is written as 0 (notes/assumptions/11.md); the `CAL` word of `ENCODE` by members is
given slice by slice, all 64 bits. -/
def Obligations.AssembledLinesAreLegalCommands : Prop :=
  (∀ line : AsmLine, ∀ c ∈ assemble line, Legal c.cw) ∧
  assemble .clr = [⟨0x0000#16, 0⟩] ∧
  (∀ v : Word64, assemble (.ldblk v) = [⟨0x1000#16, v⟩]) ∧
  assemble .rdblk = [⟨0x2000#16, 0⟩] ∧
  (∀ v : Byte, assemble (.bcdenc v) = [⟨0x3000#16, BitVec.ofNat 64 v.toNat⟩]) ∧
  (∀ v : Byte, assemble (.bcddec v) = [⟨0x4000#16, BitVec.ofNat 64 v.toNat⟩]) ∧
  (∀ v : BitVec 32, assemble (.par32 v) = [⟨0x5000#16, BitVec.ofNat 64 v.toNat⟩]) ∧
  assemble .pcalc = [⟨0x6000#16, 0⟩] ∧
  assemble .synd = [⟨0x7000#16, 0⟩] ∧
  (∀ (min hour mday mon year : Byte) (wday : BitVec 3) (dst dsta : Dst),
    let bits := fun d : Dst => if d = .off then 0b00#2 else if d = .on then 0b01#2 else 0b10#2
    ∃ v : Word64, assemble (.encodeMembers min hour mday mon year wday dst dsta) = [⟨0x8000#16, v⟩] ∧
      v.extractLsb' 0 8 = min ∧ v.extractLsb' 8 8 = hour ∧ v.extractLsb' 16 8 = mday ∧ v.extractLsb' 24 8 = mon ∧
      v.extractLsb' 32 8 = year ∧ v.extractLsb' 40 3 = wday ∧ v.extractLsb' 43 2 = bits dst ∧
      v.extractLsb' 45 2 = bits dsta ∧ v.extractLsb' 47 17 = 0) ∧
  (∀ v : Word64, assemble (.encodeWord v) = [⟨0x8000#16, v⟩]) ∧
  assemble .decode = [⟨0x9000#16, 0⟩] ∧
  (∀ f : Field, assemble (.getf f) = [⟨0xA000#16 + f.number.setWidth 16, 0⟩]) ∧
  (∀ f : Field, ∀ v : Word64, assemble (.setf f v) = [⟨0xB000#16 + f.number.setWidth 16, v⟩]) ∧
  assemble .split = Field.all.map fun f => ⟨0xA000#16 + f.number.setWidth 16, 0⟩

/-- R100: the binary-digit string of a field, character by character, its length, and the 18 strings one after another:
the 60 stream positions in transmission order, whatever digit counts the hexadecimal strings take. -/
def Obligations.FieldViewsSpellTheStream : Prop :=
  ∀ b : Word64,
    (∀ f : Field, (fieldDigits b f).length = f.wid ∧
      ∀ k < f.wid, (fieldDigits b f)[k]? = some (if b.getLsbD (f.off + k) then '1' else '0')) ∧
    ∀ hexLength : Field → Nat,
      (fieldViews hexLength b).flatMap FieldView.digits =
        (List.range 60).map fun i => if b.getLsbD i then '1' else '0'
end

