-- ==== Sys2Proof/Laws/Decode.lean ====
section
/-! SUPPORT. The fields of a command word that the encoder wrote, and a command word put together from its fields (R48). -/

namespace Sys2Proof

@[simp] theorem opOf_commandWord (op : BitVec 4) (fsel : BitVec 5) : opOf (commandWord op fsel) = op := by
  apply BitVec.eq_of_getLsbD_eq
  intro k hk
  simp only [opOf, commandWord, BitVec.getLsbD_extractLsb', BitVec.getLsbD_append]
  have : ¬ 12 + k < 5 := by omega
  have h2 : ¬ 12 + k - 5 < 7 := by omega
  have h3 : 12 + k - 5 - 7 = k := by omega
  simp [*]

@[simp] theorem zeroOf_commandWord (op : BitVec 4) (fsel : BitVec 5) : zeroOf (commandWord op fsel) = 0 := by
  apply BitVec.eq_of_getLsbD_eq
  intro k hk
  simp only [zeroOf, commandWord, BitVec.getLsbD_extractLsb', BitVec.getLsbD_append]
  have : ¬ 5 + k < 5 := by omega
  have h2 : 5 + k - 5 < 7 := by omega
  simp [*]

@[simp] theorem fselOf_commandWord (op : BitVec 4) (fsel : BitVec 5) : fselOf (commandWord op fsel) = fsel := by
  apply BitVec.eq_of_getLsbD_eq
  intro k hk
  simp only [fselOf, commandWord, BitVec.getLsbD_extractLsb', BitVec.getLsbD_append]
  have : 0 + k < 5 := by omega
  simp [*]

/-- A word whose `ZERO` field is 0 is the command word of its opcode and selector. -/
theorem commandWord_of_fields {cw : CmdWord} (h : zeroOf cw = 0) : commandWord (opOf cw) (fselOf cw) = cw := by
  have hz : zeroOf cw = 0#7 := h
  rw [commandWord, ← hz]
  apply BitVec.eq_of_getLsbD_eq
  intro k hk
  simp only [opOf, zeroOf, fselOf, BitVec.getLsbD_extractLsb', BitVec.getLsbD_append]
  by_cases h5 : k < 5
  · simp [h5]
  · by_cases h12 : k - 5 < 7
    · have : 5 + (k - 5) = k := by omega
      simp [*]
    · have : 12 + (k - 5 - 7) = k := by omega
      have : k - 5 - 7 < 4 := by omega
      simp [*]

/-- `CW[11:0] = 0` says that `ZERO` and `FSEL` are both 0 (R48, R52). -/
theorem lowTwelve_eq_zero_iff (cw : CmdWord) : cw.extractLsb' 0 12 = 0#12 ↔ zeroOf cw = 0 ∧ fselOf cw = 0 := by
  have bit (k : Nat) : (cw.extractLsb' 0 12).getLsbD k =
      if k < 5 then (fselOf cw).getLsbD k else (zeroOf cw).getLsbD (k - 5) := by
    simp only [zeroOf, fselOf, BitVec.getLsbD_extractLsb']
    by_cases h : k < 5
    · have : k < 12 := by omega
      simp [*]
    · have h2 : 5 + (k - 5) = k := by omega
      by_cases h3 : k < 12
      · have : k - 5 < 7 := by omega
        simp [*]
      · have : ¬ k - 5 < 7 := by omega
        simp [*]
  constructor
  · intro h
    rw [h] at bit
    refine ⟨BitVec.eq_of_getLsbD_eq fun k _ => ?_, BitVec.eq_of_getLsbD_eq fun k hk => ?_⟩
    · simpa using (bit (k + 5)).symm
    · simpa [hk] using (bit k).symm
  · rintro ⟨hz, hf⟩
    apply BitVec.eq_of_getLsbD_eq
    intro k _
    rw [bit, hz, hf]
    simp

/-- The selector check as a bound. -/
theorem fselInRange_iff (fsel : BitVec 5) : fselInRange fsel = true ↔ fsel.toNat < 18 := decide_eq_true_iff

end Sys2Proof
end

