-- ==== Sys2Proof/Laws/Flags.lean ====
section
/-! SUPPORT. Counting bits: the recursion of `popcountLow`, its locality, and how parity splits over xor and over adjacent ranges. -/

namespace Sys2Proof.Machine

@[simp] theorem popcountLow_zero {w : Nat} (x : BitVec w) : popcountLow x 0 = 0 := rfl

@[simp] theorem popcountLow_succ {w : Nat} (x : BitVec w) (n : Nat) :
    popcountLow x (n + 1) = popcountLow x n + (x.getLsbD n).toNat := rfl

/-- The count below `n` depends on those bits only, whatever the widths. -/
theorem popcountLow_congr {w w' : Nat} {x : BitVec w} {y : BitVec w'} {n : Nat}
    (h : ∀ k < n, x.getLsbD k = y.getLsbD k) : popcountLow x n = popcountLow y n := by
  induction n with
  | zero => rfl
  | succ n ih => simp [ih fun k hk => h k (by omega), h n (by omega)]

/-- Counting as a list count, the form statements use. -/
theorem popcountLow_eq_countP {w : Nat} (x : BitVec w) (n : Nat) :
    popcountLow x n = (List.range n).countP fun k => x.getLsbD k := by
  induction n with
  | zero => rfl
  | succ n ih =>
    cases h : x.getLsbD n <;> simp [List.range_succ, ih, h]

/-- Bits above the width of `x` do not count. -/
theorem popcountLow_of_le {w : Nat} (x : BitVec w) {n : Nat} (h : w ≤ n) : popcountLow x n = popcountLow x w := by
  induction n, h using Nat.le_induction with
  | base => rfl
  | succ n hn ih => simp [ih, BitVec.getLsbD_of_ge x n hn]

theorem popcountLow_xor {w : Nat} (x y : BitVec w) (n : Nat) :
    popcountLow (x ^^^ y) n % 2 = (popcountLow x n + popcountLow y n) % 2 := by
  induction n with
  | zero => rfl
  | succ n ih =>
    rw [popcountLow_succ, popcountLow_succ, popcountLow_succ, BitVec.getLsbD_xor]
    cases x.getLsbD n <;> cases y.getLsbD n <;>
      simp only [Bool.xor_false, Bool.xor_true, Bool.not_true, Bool.not_false, Bool.toNat_true, Bool.toNat_false] <;>
      omega

theorem par32_eq (x : BitVec 32) : par32 x = BitVec.ofNat 1 (popcountLow x 32 % 2) := rfl

end Sys2Proof.Machine
end

