-- ==== Sys2Proof/Laws/Operands.lean ====
section
/-! SUPPORT. Field extract and insert bit by bit, and the field selector: the lemmas every proof about a field cites. -/

namespace Sys2Proof.Machine

theorem field_mem_all (f : Field) : f ∈ Field.all := by cases f <;> decide

theorem field_end_le_sixty (f : Field) : f.off + f.wid ≤ 60 := by cases f <;> decide

theorem fieldOf_number (f : Field) : fieldOf f.number = some f := by cases f <;> decide

theorem fieldOf_eq_none {fsel : BitVec 5} (h : 18 ≤ fsel.toNat) : fieldOf fsel = none := by
  simpa [fieldOf, Field.all] using h

theorem fieldOf_eq_some {fsel : BitVec 5} (h : fselInRange fsel = true) : ∃ f, fieldOf fsel = some f := by
  have h' : fsel.toNat < 18 := of_decide_eq_true h
  exact ⟨_, List.getElem?_eq_getElem (by simpa [Field.all] using h')⟩

/-- Every bit of an insertion: the inserted value inside the range, the old bit outside it (R24, R32). -/
theorem getLsbD_insertBits (b : Word64) (start len : Nat) (v : BitVec len) (h : start + len ≤ 64) (k : Nat) :
    (insertBits b start len v).getLsbD k =
      if start ≤ k ∧ k < start + len then v.getLsbD (k - start) else b.getLsbD k := by
  simp only [insertBits, BitVec.getLsbD_or, BitVec.getLsbD_and, BitVec.getLsbD_not, BitVec.getLsbD_shiftLeft,
    BitVec.getLsbD_setWidth, BitVec.getLsbD_allOnes]
  by_cases hk : k < 64
  · by_cases h1 : start ≤ k
    · by_cases h2 : k < start + len
      · have : k - start < 64 := by omega
        have : k - start < len := by omega
        have : ¬ k < start := by omega
        simp [*]
      · have h3 : ¬ k - start < len := by omega
        have h4 : v.getLsbD (k - start) = false := BitVec.getLsbD_of_ge v _ (by omega)
        simp [hk, h1, h2, h3, h4]
    · have : k < start := by omega
      simp [*]
  · have h1 : ¬ k < start + len := by omega
    have h2 : b.getLsbD k = false := BitVec.getLsbD_of_ge b _ (by omega)
    simp [hk, h1, h2]

/-- Bit `k` of a field is stream position `off(f) + k` (R30, R31). -/
theorem getLsbD_getField (b : Word64) (f : Field) (k : Nat) :
    (getField b f).getLsbD k = (decide (k < f.wid) && b.getLsbD (f.off + k)) := by
  simp [getField, BitVec.getLsbD_extractLsb']

/-- Every bit of a field insertion (R32). -/
theorem getLsbD_setField {n : Nat} (b : Word64) (f : Field) (v : BitVec n) (k : Nat) :
    (setField b f v).getLsbD k =
      if f.off ≤ k ∧ k < f.off + f.wid then v.getLsbD (k - f.off) else b.getLsbD k := by
  have hf := field_end_le_sixty f
  rw [setField, getLsbD_insertBits _ _ _ _ (by omega)]
  split
  · have : k - f.off < f.wid := by omega
    simp [this]
  · rfl

end Sys2Proof.Machine
end

