-- ==== Sys2Proof/Laws/State.lean ====
section
/-! SUPPORT. One lemma per field per update of the state, all true by `rfl`, so that no later proof unfolds a record update. -/

namespace Sys2Proof.Machine

@[simp] theorem respond_blk (r : Word64) (st : Status) (s : State) : (respond r st s).blk = s.blk := rfl
@[simp] theorem respond_cw (r : Word64) (st : Status) (s : State) : (respond r st s).cw = s.cw := rfl
@[simp] theorem respond_arg (r : Word64) (st : Status) (s : State) : (respond r st s).arg = s.arg := rfl
@[simp] theorem respond_pending (r : Word64) (st : Status) (s : State) : (respond r st s).pending = s.pending := rfl
@[simp] theorem respond_responses (r : Word64) (st : Status) (s : State) :
    (respond r st s).responses = s.responses ++ [⟨r, st⟩] := rfl

@[simp] theorem writeBlk_blk (v : Word64) (s : State) : (writeBlk v s).blk = v := rfl
@[simp] theorem writeBlk_cw (v : Word64) (s : State) : (writeBlk v s).cw = s.cw := rfl
@[simp] theorem writeBlk_arg (v : Word64) (s : State) : (writeBlk v s).arg = s.arg := rfl
@[simp] theorem writeBlk_pending (v : Word64) (s : State) : (writeBlk v s).pending = s.pending := rfl
@[simp] theorem writeBlk_responses (v : Word64) (s : State) : (writeBlk v s).responses = s.responses := rfl

@[simp] theorem writeBlk_self (s : State) : writeBlk s.blk s = s := rfl
@[simp] theorem writeBlk_writeBlk (v w : Word64) (s : State) : writeBlk v (writeBlk w s) = writeBlk v s := rfl
theorem writeBlk_respond (v r : Word64) (st : Status) (s : State) :
    writeBlk v (respond r st s) = respond r st (writeBlk v s) := rfl

@[simp] theorem enqueueFirst_blk (c : Command) (s : State) : (enqueueFirst c s).blk = s.blk := rfl
@[simp] theorem enqueueFirst_cw (c : Command) (s : State) : (enqueueFirst c s).cw = s.cw := rfl
@[simp] theorem enqueueFirst_arg (c : Command) (s : State) : (enqueueFirst c s).arg = s.arg := rfl
@[simp] theorem enqueueFirst_pending (c : Command) (s : State) : (enqueueFirst c s).pending = c :: s.pending := rfl
@[simp] theorem enqueueFirst_responses (c : Command) (s : State) :
    (enqueueFirst c s).responses = s.responses := rfl

@[simp] theorem reset_blk : State.reset.blk = 0 := rfl
@[simp] theorem reset_cw : State.reset.cw = 0 := rfl
@[simp] theorem reset_arg : State.reset.arg = 0 := rfl
@[simp] theorem reset_pending : State.reset.pending = [] := rfl
@[simp] theorem reset_responses : State.reset.responses = [] := rfl

end Sys2Proof.Machine
end

