-- ==== Sys2Proof/Laws/Ops.lean ====
section
/-! SUPPORT. What each shared operation answers, and the inversion of one step: everything a meaning, a port and a step can do,
said once. -/

namespace Sys2Proof.Machine

theorem answer_eq (r : Word64) (s : State) : answer r s = .next (respond r .ok s) := rfl
theorem store_eq (v : Word64) (s : State) : store v s = .next (respond v .ok (writeBlk v s)) := rfl
theorem raiseIllegal_eq (s : State) : raiseIllegal s = .next (respond 0 .illegal s) := rfl

theorem answer_next {r : Word64} {s t : State} (h : answer r s = .next t) : t = respond r .ok s := by
  simpa [answer] using h.symm

theorem store_next {v : Word64} {s t : State} (h : store v s = .next t) :
    t = respond v .ok (writeBlk v s) := by
  simpa [store] using h.symm

theorem raiseIllegal_next {s t : State} (h : raiseIllegal s = .next t) : t = respond 0 .illegal s := by
  simpa [raiseIllegal] using h.symm

theorem present_nil {s : State} (h : s.pending = []) : present s = none := by simp [present, h]

theorem present_cons {s : State} {c : Command} {cs : List Command} (h : s.pending = c :: cs) :
    present s = some { s with cw := c.cw, arg := c.arg, pending := cs } := by simp [present, h]

/-- What a meaning can do, for every command: it answers a next state that differs only in `BLK` and in one response
added at the end, and a response with `ST = 1` has result 0 and leaves `BLK`. -/
theorem exec_cases (i : Instr) (s : State) :
    ∃ v r st, exec i s = .next (respond r st (writeBlk v s)) ∧ (st = .illegal → r = 0 ∧ v = s.blk) := by
  cases i with
  | clr => exact ⟨0, 0, .ok, rfl, nofun⟩
  | ldblk => exact ⟨s.arg, s.arg, .ok, rfl, nofun⟩
  | encode => exact ⟨_, _, .ok, rfl, nofun⟩
  | rdblk | bcdenc | bcddec | par32 | pcalc | synd | decode => exact ⟨s.blk, _, .ok, rfl, nofun⟩
  | getf fsel =>
    simp only [exec, execGetf]
    split
    · exact ⟨s.blk, _, .ok, rfl, nofun⟩
    · exact ⟨s.blk, 0, .illegal, rfl, fun _ => ⟨rfl, rfl⟩⟩
  | setf fsel =>
    simp only [exec, execSetf]
    split
    · exact ⟨_, _, .ok, rfl, nofun⟩
    · exact ⟨s.blk, 0, .illegal, rfl, fun _ => ⟨rfl, rfl⟩⟩

/-- The ports are read by `exec` only through `ARG`: two states that agree on `BLK` and `ARG` get the same new `BLK`
and the same response. -/
theorem exec_congr (i : Instr) {s s' : State} (hb : s.blk = s'.blk) (ha : s.arg = s'.arg) :
    ∃ v r st, exec i s = .next (respond r st (writeBlk v s)) ∧
      exec i s' = .next (respond r st (writeBlk v s')) := by
  obtain ⟨b, w, a, p, rs⟩ := s
  obtain ⟨b', w', a', p', rs'⟩ := s'
  obtain rfl : b = b' := hb
  obtain rfl : a = a' := ha
  cases i with
  | clr | ldblk | encode => exact ⟨_, _, .ok, rfl, rfl⟩
  | rdblk | bcdenc | bcddec | par32 | pcalc | synd | decode => exact ⟨b, _, .ok, rfl, rfl⟩
  | getf fsel =>
    simp only [exec, execGetf]
    split
    · exact ⟨b, _, .ok, rfl, rfl⟩
    · exact ⟨b, 0, .illegal, rfl, rfl⟩
  | setf fsel =>
    simp only [exec, execSetf]
    split
    · exact ⟨_, _, .ok, rfl, rfl⟩
    · exact ⟨b, 0, .illegal, rfl, rfl⟩

/-- A step with a command presented, by the verdict on its word. -/
theorem step_cons {s : State} {c : Command} {cs : List Command} (h : s.pending = c :: cs) :
    step s = match decode c.cw with
      | .command i => exec i { s with cw := c.cw, arg := c.arg, pending := cs }
      | .illegal _ => raiseIllegal { s with cw := c.cw, arg := c.arg, pending := cs } := by
  simp only [step, present_cons h]
  cases hd : decode c.cw <;> simp only [execPort, hd]

/-- Everything a step with a command presented can do: one new `BLK`, one response. -/
theorem step_cons_cases {s : State} {c : Command} {cs : List Command} (h : s.pending = c :: cs) :
    ∃ v r st, step s = .next (respond r st (writeBlk v { s with cw := c.cw, arg := c.arg, pending := cs })) ∧
      (st = .illegal → r = 0 ∧ v = s.blk) := by
  rw [step_cons h]
  cases decode c.cw with
  | command i => exact exec_cases i _
  | illegal why => exact ⟨s.blk, 0, .illegal, rfl, fun _ => ⟨rfl, rfl⟩⟩

/-- One step of a run of the machine. -/
theorem run_succ {s t : State} (n : Nat) (h : step s = .next t) :
    Host.Core.run Sys2Proof.core (n + 1) s = Host.Core.run Sys2Proof.core n t := by
  have : Sys2Proof.core.step s = .next t := h
  simp only [Host.Core.run, this]

end Sys2Proof.Machine
end

