-- ==== Sys2Proof/Laws/PerInstr.lean ====
section
/-! SUPPORT. Statements about every instruction as syntax, one lemma per constructor: the encoder writes a legal command word for
every well-formed instruction (R52). -/

namespace Sys2Proof.Laws.EncodeLegal

/-- The family's statement about one instruction. -/
def Statement (i : Instr) : Prop := i.wellFormed = true → Legal (encode i)

theorem clr : Statement .clr := fun _ => by decide
theorem ldblk : Statement .ldblk := fun _ => by decide
theorem rdblk : Statement .rdblk := fun _ => by decide
theorem bcdenc : Statement .bcdenc := fun _ => by decide
theorem bcddec : Statement .bcddec := fun _ => by decide
theorem par32 : Statement .par32 := fun _ => by decide
theorem pcalc : Statement .pcalc := fun _ => by decide
theorem synd : Statement .synd := fun _ => by decide
theorem encode : Statement .encode := fun _ => by decide
theorem decode : Statement .decode := fun _ => by decide

theorem getf (fsel : BitVec 5) : Statement (.getf fsel) := fun h => by
  have : fsel.toNat < 18 := of_decide_eq_true h
  exact .inr ⟨by simp [Sys2Proof.encode], by simp [Sys2Proof.encode], by simp [Sys2Proof.encode]; omega⟩

theorem setf (fsel : BitVec 5) : Statement (.setf fsel) := fun h => by
  have : fsel.toNat < 18 := of_decide_eq_true h
  exact .inr ⟨by simp [Sys2Proof.encode], by simp [Sys2Proof.encode], by simp [Sys2Proof.encode]; omega⟩

end Sys2Proof.Laws.EncodeLegal
end

