-- ==== Sys2Proof/Laws/Values.lean ====
section
/-! SUPPORT. The values the functions compute, as natural numbers, and the slices of a calendar word: what a proof about a
result needs in place of the definitions. -/

namespace Sys2Proof.Machine

theorem zext64_eq {n : Nat} (v : BitVec n) : zext64 v = BitVec.ofNat 64 v.toNat := by
  apply BitVec.eq_of_toNat_eq
  simp [zext64]

/-- R66 on numbers. -/
theorem bcdEnc_toNat (v : Byte) : (bcdEnc v).toNat = 16 * (v.toNat % 100 / 10) + v.toNat % 100 % 10 := by
  revert v; decide +kernel

/-- R68 on numbers. -/
theorem bcdDec_toNat (v : Byte) : (bcdDec v).toNat = 10 * (v.toNat / 16) + v.toNat % 16 := by
  revert v; decide +kernel

/-- R83 on numbers. -/
theorem monthByte_toNat (m : Byte) :
    (monthByte m).toNat = 16 * ((m.toNat + 1) % 100 / 10) + (m.toNat + 1) % 100 % 10 := by
  revert m; decide +kernel

/-- R31 on numbers. -/
theorem getField_toNat (b : Word64) (f : Field) : (getField b f).toNat = b.toNat / 2 ^ f.off % 2 ^ f.wid := by
  simp [getField, BitVec.extractLsb'_toNat, Nat.shiftRight_eq_div_pow]

/-- A field depends on its own bits only (R31). -/
theorem getField_congr {a b : Word64} {f : Field}
    (h : ∀ k < f.wid, a.getLsbD (f.off + k) = b.getLsbD (f.off + k)) : getField a f = getField b f := by
  apply BitVec.eq_of_getLsbD_eq
  intro k hk
  rw [getLsbD_getField, getLsbD_getField, h k hk]

/-- R87 on numbers. -/
theorem decodeField_toNat (b : Word64) (f : Field) (h : f.wid ≤ 8) :
    (decodeField b f).toNat = 10 * ((getField b f).toNat / 16) + (getField b f).toNat % 16 := by
  rw [decodeField, bcdDec_toNat, BitVec.toNat_setWidth, Nat.mod_eq_of_lt]
  exact lt_of_lt_of_le (getField b f).isLt (Nat.pow_le_pow_right (by omega) h)

/-! ### Counting -/

theorem onesIn_eq (b : Word64) (lo len : Nat) : onesIn b lo len = popcountLow (b.extractLsb' lo len) len := by
  rw [popcountLow_eq_countP, onesIn]
  apply List.countP_congr
  intro k hk
  have : k < len := by simpa using hk
  simp [this]

/-- Adjacent ranges add up. -/
theorem onesIn_add (b : Word64) (lo l1 l2 : Nat) :
    onesIn b lo (l1 + l2) = onesIn b lo l1 + onesIn b (lo + l1) l2 := by
  simp [onesIn, List.range_add, List.countP_append, List.countP_map, Function.comp_def, Nat.add_assoc]

theorem onesIn_congr {a b : Word64} {lo len : Nat}
    (h : ∀ k < len, a.getLsbD (lo + k) = b.getLsbD (lo + k)) : onesIn a lo len = onesIn b lo len := by
  apply List.countP_congr
  intro k hk
  rw [h k (List.mem_range.1 hk)]

theorem onesIn_single (b : Word64) (k : Nat) : onesIn b k 1 = (b.getLsbD k).toNat := by
  cases h : b.getLsbD k <;> simp [onesIn, List.range_succ, h]

/-- Zero extension does not change a parity (R72). -/
theorem par32_zext {n : Nat} (y : BitVec n) (h : n ≤ 32) : (par32 (y.setWidth 32)).toNat = popcountLow y n % 2 := by
  rw [par32_eq, BitVec.toNat_ofNat, popcountLow_congr (y := y) (fun k hk => by simp [hk]), popcountLow_of_le y h]
  omega

theorem fieldParity_toNat (b : Word64) (f : Field) : (fieldParity b f).toNat = onesIn b f.off f.wid % 2 := by
  rw [fieldParity, par32_zext _ (by cases f <;> decide), onesIn_eq]
  rfl

/-! ### The calendar word -/

/-- The slices of a calendar word are its members (R55). -/
theorem calWord_slices (c : Cal) :
    (calWord c).extractLsb' 0 8 = c.min ∧ (calWord c).extractLsb' 8 8 = c.hour ∧
    (calWord c).extractLsb' 16 8 = c.mday ∧ (calWord c).extractLsb' 24 8 = c.mon ∧
    (calWord c).extractLsb' 32 8 = c.year ∧ (calWord c).extractLsb' 40 3 = c.wday ∧
    (calWord c).extractLsb' 43 2 = c.dst ∧ (calWord c).extractLsb' 45 2 = c.dsta ∧
    (calWord c).extractLsb' 47 17 = 0 := by
  refine ⟨?_, ?_, ?_, ?_, ?_, ?_, ?_, ?_, ?_⟩ <;>
  · apply BitVec.eq_of_getLsbD_eq
    intro k hk
    simp only [calWord, BitVec.getLsbD_extractLsb', BitVec.getLsbD_append, hk]
    repeat (first | (rw [if_pos (by omega)]) | (rw [if_neg (by omega)]))
    simp
    try (congr 1; omega)

/-! ### Text -/

theorem hexVal_hexDigit : ∀ n : BitVec 4, hexVal (hexDigit n) = some n := by decide

theorem hexDigits_length (b : Word64) (n : Nat) : (hexDigits b n).length = n := by
  induction n with
  | zero => rfl
  | succ n ih => simp [hexDigits, ih]

end Sys2Proof.Machine
end

