-- ==== Sys2Proof/Tests/Slice0.lean ====
section
/-! SUPPORT. The model's own tests, on fixed values. Every expected value is transcribed from the spec (95_test_vectors.md unless
another rule is named), none from the model. Then one witness per statement that has hypotheses. -/

namespace Sys2Proof.Tests

open Sys2Proof Sys2Proof.Machine

/-- A state whose `BLK` is `blk`, with one command to present. -/
def presenting (blk : Word64) (cw : CmdWord) (arg : Word64) : State :=
  { blk := blk, cw := 0, arg := 0, pending := [⟨cw, arg⟩], responses := [] }

/-- The new `BLK` and the response of a next state; `none` for a stop. -/
def outcome : Result → Option (Word64 × List Response)
  | .next t => some (t.blk, t.responses)
  | .fault _ => none
  | .refused _ => none

/-- One command on a Block: new `BLK` and response. -/
def run (blk : Word64) (cw : CmdWord) (arg : Word64) : Option (Word64 × List Response) :=
  outcome (step (presenting blk cw arg))

/-! ### WellFormed: ill-formed terms are refused (R52) -/

theorem test_getf_18_is_ill_formed : Instr.wellFormed (.getf 18) = false := by decide
theorem test_setf_31_is_ill_formed : Instr.wellFormed (.setf 31) = false := by decide
theorem test_getf_17_is_well_formed : Instr.wellFormed (.getf 17) = true := by decide

/-! ### Decoding: words written out from the patterns of R51 -/

theorem test_decode_clr : decode 0b0000_0000000_00000#16 = .command .clr := by decide
theorem test_decode_ldblk : decode 0b0001_0000000_00000#16 = .command .ldblk := by decide
theorem test_decode_rdblk : decode 0b0010_0000000_00000#16 = .command .rdblk := by decide
theorem test_decode_bcdenc : decode 0b0011_0000000_00000#16 = .command .bcdenc := by decide
theorem test_decode_bcddec : decode 0b0100_0000000_00000#16 = .command .bcddec := by decide
theorem test_decode_par32 : decode 0b0101_0000000_00000#16 = .command .par32 := by decide
theorem test_decode_pcalc : decode 0b0110_0000000_00000#16 = .command .pcalc := by decide
theorem test_decode_synd : decode 0b0111_0000000_00000#16 = .command .synd := by decide
theorem test_decode_encode : decode 0b1000_0000000_00000#16 = .command .encode := by decide
theorem test_decode_decode : decode 0b1001_0000000_00000#16 = .command .decode := by decide
theorem test_decode_getf_year : decode 0b1010_0000000_01111#16 = .command (.getf 15) := by decide
theorem test_decode_setf_p3 : decode 0b1011_0000000_10000#16 = .command (.setf 16) := by decide

/-- B.6, the five groups of illegal words. -/
theorem test_decode_illegal :
    decode 0xC000 = .illegal .reservedOpcode ∧ decode 0xFFFF = .illegal .reservedOpcode ∧
    decode 0x0001 = .illegal .fselNotAllowed ∧ decode 0x9011 = .illegal .fselNotAllowed ∧
    decode 0x0020 = .illegal .zeroFieldSet ∧ decode 0x8800 = .illegal .zeroFieldSet ∧
    decode 0xA012 = .illegal .fselOutOfRange ∧ decode 0xB01F = .illegal .fselOutOfRange ∧
    decode 0xA020 = .illegal .zeroFieldSet ∧ decode 0xB111 = .illegal .zeroFieldSet := by decide

theorem test_decodeTableWord :
    decodeTableWord 16 0xB011 = some (.setf 17) ∧ decodeTableWord 16 0xA012 = none := by decide

/-- `withFetchWord` makes the very next step run the word: `DECODE` of the reset Block (V12). -/
theorem test_withFetchWord :
    outcome (step (State.reset.withFetchWord 16 0x9000)) = some (0, [⟨0x00000000FF000000, .ok⟩]) := by decide

/-! ### One step per command -/

/-- V20. -/
theorem test_clr : run 0xFFFFFFFFFFFFFFFF 0x0000 0 = some (0, [⟨0, .ok⟩]) := by decide
/-- V22. -/
theorem test_ldblk : run 0 0x1000 0xF000000000000001 = some (0xF000000000000001, [⟨0xF000000000000001, .ok⟩]) := by
  decide
/-- V24. -/
theorem test_rdblk : run 0x005CF88132120000 0x2000 0xFFFFFFFFFFFFFFFF =
    some (0x005CF88132120000, [⟨0x005CF88132120000, .ok⟩]) := by decide
/-- B.2: 255 folds to 55. -/
theorem test_bcdenc_folds : run 7 0x3000 255 = some (7, [⟨0x55, .ok⟩]) := by decide
/-- B.2: the upper operand bits are ignored. -/
theorem test_bcdenc_ignores : run 7 0x3000 0xFFFFFFFFFFFFFF11 = some (7, [⟨0x17, .ok⟩]) := by decide
/-- B.2: `0xFF` decodes to 165. -/
theorem test_bcddec_malformed : run 7 0x4000 0xFF = some (7, [⟨165, .ok⟩]) := by decide
/-- B.2. -/
theorem test_bcddec_ignores : run 7 0x4000 0x117 = some (7, [⟨0x11, .ok⟩]) := by decide
/-- B.3: bit 31 counts. -/
theorem test_par32_bit31 : run 7 0x5000 0x80000000 = some (7, [⟨1, .ok⟩]) := by decide
/-- B.3: bit 32 does not. -/
theorem test_par32_bit32 : run 7 0x5000 0x0000000100000001 = some (7, [⟨1, .ok⟩]) := by decide
/-- V31. -/
theorem test_pcalc_ones : run 0xFFFFFFFFFFFFFFFF 0x6000 0 = some (0xFFFFFFFFFFFFFFFF, [⟨0b001, .ok⟩]) := by decide
/-- V36. -/
theorem test_pcalc_date : run 0x005CF98132120000 0x6000 0 = some (0x005CF98132120000, [⟨0b101, .ok⟩]) := by decide
/-- V31. -/
theorem test_synd_ones : run 0xFFFFFFFFFFFFFFFF 0x7000 0 = some (0xFFFFFFFFFFFFFFFF, [⟨0b110, .ok⟩]) := by decide
/-- V35. -/
theorem test_synd_p2 : run 0x005CF88932120000 0x7000 0 = some (0x005CF88932120000, [⟨0b010, .ok⟩]) := by decide
/-- V5: summer time about to end. -/
theorem test_encode_v5 : run 7 0x8000 0x00000811091D021E =
    some (0x045E1E9846130000, [⟨0x045E1E9846130000, .ok⟩]) := by decide
/-- V9: every member out of range. -/
theorem test_encode_v9 : run 7 0x8000 0x00005FFFFF632D55 =
    some (0x0556DD90A0B40000, [⟨0x0556DD90A0B40000, .ok⟩]) := by decide
/-- V11. -/
theorem test_decode_v11 : run 0x005CF88132120000 0x9000 0 =
    some (0x005CF88132120000, [⟨0x00000E110608090A, .ok⟩]) := by decide
/-- V13. -/
theorem test_decode_v13 : run 0xFFFFFFFFFFFFFFFF 0x9000 0 =
    some (0xFFFFFFFFFFFFFFFF, [⟨0x000008A5182D2D55, .ok⟩]) := by decide
/-- P6 step 7: `CIV` crosses a byte boundary. -/
theorem test_getf_civ : run 0xF7FFFFFFFFFFFFFE 0xA001 0 = some (0xF7FFFFFFFFFFFFFE, [⟨0x3FFF, .ok⟩]) := by decide
/-- B.5. -/
theorem test_getf_year : run 0x005CF88132120000 0xA00F 0 = some (0x005CF88132120000, [⟨0x17, .ok⟩]) := by decide
/-- V41: truncated to 8 bits. -/
theorem test_setf_year : run 0 0xB00F 0x1FF = some (0x03FC000000000000, [⟨0x03FC000000000000, .ok⟩]) := by decide
/-- V43: only bits 27..21 cleared. -/
theorem test_setf_min : run 0xFFFFFFFFFFFFFFFF 0xB008 0 =
    some (0xFFFFFFFFF01FFFFF, [⟨0xFFFFFFFFF01FFFFF, .ok⟩]) := by decide
/-- P4 steps 4 and 5. -/
theorem test_illegal_getf_18 : run 5 0xA012 9 = some (5, [⟨0, .illegal⟩]) := by decide
theorem test_illegal_reserved : run 5 0xC000 9 = some (5, [⟨0, .illegal⟩]) := by decide

/-! ### Host-side text -/

/-- R60, P1 step 2. -/
theorem test_read_encode :
    (readLine "ENCODE min=10, hour=9, mday=8, mon=6, year=17, wday=6, dst=on, dsta=on".toList).map assemble =
      some [⟨0x8000, 0x00002E110608090A⟩] := by decide
/-- R60: `SETF MIN, #0x11` is `B008 / 0000000000000011`; a field number in decimal. -/
theorem test_read_setf :
    (readLine "SETF MIN, #0x11".toList).map (fun l => (assemble l).map listing) =
      some ["B008 / 0000000000000011".toList] ∧
    readLine "GETF 17".toList = some (.getf .mm) ∧ readLine "GETF 18".toList = none ∧
    readLine "BCDENC #256".toList = none ∧ readLine "clr".toList = none := by decide
/-- R38, P1: the scenario block. -/
theorem test_hex_text : toHexText 0x005CF88132120000 = "005CF88132120000".toList := by decide
/-- R100: `MIN = 0x10` renders as `0000100`. -/
theorem test_field_digits : fieldDigits 0x005CF88132120000 .min = "0000100".toList := by decide
/-- R101: lower case, here with two digits. -/
theorem test_field_hex : fieldHex 2 0x03FC000000000000 .year = "ff".toList := by decide
/-- R107: 16 characters of room are too few. -/
theorem test_capacity :
    toHexTextInto 16 0 = .error .insufficientCapacity ∧ toHexTextInto 17 0 = .ok (toHexText 0) := ⟨rfl, rfl⟩

/-! ### Witnesses: the hypotheses of each statement can be met -/

theorem witness_DecodeOfEncodeIsTheInstruction :
    Instr.wellFormed (.getf 17) = true ∧ Instr.wellFormed (.setf 0) = true ∧ Instr.wellFormed .synd = true := by decide

theorem witness_EncodeOfDecodeIsTheWord :
    decode 0xB011 = .command (.setf 17) ∧ decode 0xA000 = .command (.getf 0) := by decide

theorem witness_LegalWordsAreExactlyFortySix :
    Legal 0x9000 ∧ Legal 0xB011 ∧ ¬ Legal 0xB012 ∧ ¬ Legal 0x9001 := by decide

theorem witness_OpcodeTableAcceptsWhatTheDecoderReads :
    (∃ row ∈ opcodeTable, row.Accepts 0xA011) ∧ ∀ row ∈ opcodeTable, ¬ row.Accepts 0xA012 := by decide

theorem witness_StepRunsTheDecodedCommand :
    (presenting 7 0xB011 1).pending = ⟨0xB011, 1⟩ :: [] ∧ decode 0xB011 = .command (.setf 17) := by decide

theorem witness_StepIsATotalFunctionOfBlkCwArg :
    (presenting 7 0xC000 1).pending = ⟨0xC000, 1⟩ :: [] ∧ (presenting 7 0x1000 1).pending = ⟨0x1000, 1⟩ :: [] := by decide

theorem witness_IdleWhenNoCommandIsPresented : State.reset.pending = [] := rfl

/-- Each of the four ways, at the edges of its range. -/
theorem witness_ReservedAndIllegalWordsRaise :
    (ReservedOrIllegal 0xC000 ∧ ReservedOrIllegal 0xFFFF ∧ ReservedOrIllegal 0x0020 ∧ ReservedOrIllegal 0xB800 ∧
      ReservedOrIllegal 0x0001 ∧ ReservedOrIllegal 0x901F ∧ ReservedOrIllegal 0xA012 ∧ ReservedOrIllegal 0xB01F) ∧
    ∀ cw, (presenting 7 cw 1).pending = ⟨cw, 1⟩ :: [] :=
  ⟨by decide, fun _ => rfl⟩

/-- A word that is not legal with a command after it, and one that is legal. -/
theorem witness_IllegalCommandIffWordNotLegal :
    ({ State.reset with pending := [⟨0xA012, 1⟩, ⟨0x2000, 0⟩] } : State).pending = ⟨0xA012, 1⟩ :: [⟨0x2000, 0⟩] ∧
    ¬ Legal 0xA012 ∧ [(⟨0x2000, 0⟩ : Command)] = ⟨0x2000, 0⟩ :: [] ∧ Legal 0x2000 := by decide

/-- A command that changes `BLK` and one that does not. -/
theorem witness_OnlyFourCommandsChangeBlk :
    (∃ t, exec (.setf 0) { State.reset with arg := 1 } = .next t ∧ t.blk ≠ 0) ∧
    ∃ t, exec .synd State.reset = .next t ∧ t.blk = 0 := ⟨⟨_, rfl, by decide⟩, ⟨_, rfl, by decide⟩⟩

/-- Selectors past the end, and presented words of the opcode: last legal, first illegal, `ZERO` set. -/
theorem witness_GetfReturnsTheField :
    18 ≤ (18#5).toNat ∧ 18 ≤ (31#5).toNat ∧
    (0xA011#16).extractLsb' 12 4 = 0xA#4 ∧ (0xA012#16).extractLsb' 12 4 = 0xA#4 ∧ (0xA020#16).extractLsb' 12 4 = 0xA#4 ∧
    (presenting 7 0xA011 1).pending = ⟨0xA011, 1⟩ :: [] := by decide
theorem witness_SetfWritesTheFieldOnly :
    18 ≤ (18#5).toNat ∧ 18 ≤ (31#5).toNat ∧
    (Field.off .mm ≤ 59 ∧ 59 < Field.off .mm + Field.wid .mm) ∧
    ¬ (Field.off .mm ≤ 60 ∧ 60 < Field.off .mm + Field.wid .mm) ∧
    (0xB011#16).extractLsb' 12 4 = 0xB#4 ∧ (0xB012#16).extractLsb' 12 4 = 0xB#4 ∧ (0xB020#16).extractLsb' 12 4 = 0xB#4 ∧
    (presenting 7 0xB020 1).pending = ⟨0xB020, 1⟩ :: [] := by decide

theorem witness_IgnoredOperandBitsDoNotMatter :
    (0xFFFFFFFFFFFFFF11#64 &&& usedArgBits .bcdenc = 0x11#64 &&& usedArgBits .bcdenc) ∧
    (0xFFFFFFFFFFFFFFFF#64 &&& usedArgBits .clr = 0#64 &&& usedArgBits .clr) ∧
    (0xFFFF800000000001#64 &&& usedArgBits .encode = 1#64 &&& usedArgBits .encode) ∧
    (0xFFFFFFFFFFFFFFFF#64 &&& usedArgBits (.setf 8) = 0x7F#64 &&& usedArgBits (.setf 8)) := by decide

theorem witness_ReservedBitsAreCarriedAndNotInterpreted :
    (∃ t, exec .encode { State.reset with blk := 0xF000000000000000 } = .next t) ∧
    Instr.synd ≠ .rdblk ∧ (∀ fsel, Instr.synd ≠ .setf fsel) ∧
    (0xF00000000000000F#64).extractLsb' 0 60 = (0x000000000000000F#64).extractLsb' 0 60 :=
  ⟨⟨_, rfl⟩, by decide, nofun, by decide⟩

/-- Two Blocks that differ in bits 16, 28, 35, 58, 59 and 63. -/
theorem witness_DecodeReadsOnlyItsFields (k : Nat)
    (h : (36 ≤ k ∧ k ≤ 57) ∨ (29 ≤ k ∧ k ≤ 34) ∨ (21 ≤ k ∧ k ≤ 27) ∨ k = 17) :
    (0x005CF88132120000#64).getLsbD k = (0x8C5CF88922130000#64).getLsbD k := by
  have all : ∀ k < 58, ((36 ≤ k ∧ k ≤ 57) ∨ (29 ≤ k ∧ k ≤ 34) ∨ (21 ≤ k ∧ k ≤ 27) ∨ k = 17) →
      (0x005CF88132120000#64).getLsbD k = (0x8C5CF88922130000#64).getLsbD k := by decide
  exact all k (by omega) h

/-- A reading command and an illegal one; no command of the list writes `BLK`. -/
theorem witness_CommandsThatDoNotWriteKeepOneBlock :
    ∀ c ∈ [(⟨0x2000, 0⟩ : Command), ⟨0xC000, 5⟩, ⟨0xA011, 0⟩], ∀ i, decode c.cw = .command i → ¬ WritesBlk i := by
  intro c hc i hi
  fin_cases hc
  · rw [show decode 0x2000 = .command .rdblk by decide] at hi
    cases hi; exact id
  · rw [show decode 0xC000 = .illegal .reservedOpcode by decide] at hi
    cases hi
  · rw [show decode 0xA011 = .command (.getf 17) by decide] at hi
    cases hi; exact id

theorem witness_SplitReturnsTheEighteenFields :
    ({ State.reset with pending := split ++ [⟨0x2000, 0⟩] } : State).pending = split ++ [⟨0x2000, 0⟩] := rfl

theorem witness_SelectorsNumberTheFieldsInOrder :
    (0#5).toNat ≤ 17 ∧ (17#5).toNat ≤ 17 ∧ 18 ≤ (18#5).toNat ∧ 18 ≤ (31#5).toNat := by decide

theorem witness_FieldsTileTheStream :
    59 < 60 ∧ Field.off .mm ≤ 59 ∧ 59 < Field.off .mm + Field.wid .mm ∧ Field.mm ∈ Field.all := by decide

theorem witness_SetFieldLaws : Field.mm ≠ Field.m := by decide

/-- The last byte, the whole Block, and one byte too many. -/
theorem witness_ByteAndBitOrderOfTheBlock : 7 < 8 ∧ 7 + 1 ≤ 8 ∧ 0 + 8 ≤ 8 ∧ 8 < 8 + 1 ∧ 8 < 0 + 9 := by decide

theorem witness_BcdRoundTripLaws :
    (0x99#8).toNat / 16 ≤ 9 ∧ (0x99#8).toNat % 16 ≤ 9 ∧ (0x00#8).toNat / 16 ≤ 9 ∧ (0x00#8).toNat % 16 ≤ 9 := by decide

theorem witness_ParityCountsAndIsLinear : 0 ≤ 32 ∧ 32 ≤ 32 := by decide

theorem witness_SettingUncoveredFieldsKeepsTheSyndrome :
    Field.m ∈ [Field.m, Field.civ, Field.r, Field.a1, Field.z1, Field.z2, Field.a2, Field.s, Field.mm] ∧
    Field.p3 ∈ [Field.min, Field.hour, Field.day, Field.dow, Field.mon, Field.year, Field.p1, Field.p2, Field.p3] := by
  decide

/-- The largest members in calendar range, and the smallest. -/
theorem witness_InCalendarRangeNothingIsTruncated :
    (∃ c : Word64, (c.extractLsb' 0 8).toNat = 59 ∧ (c.extractLsb' 8 8).toNat = 23 ∧ (c.extractLsb' 16 8).toNat = 31 ∧
      (c.extractLsb' 40 3).toNat = 6 ∧ (c.extractLsb' 24 8).toNat = 11 ∧ (c.extractLsb' 32 8).toNat = 99) ∧
    ∃ c : Word64, (c.extractLsb' 0 8).toNat = 0 ∧ (c.extractLsb' 8 8).toNat = 0 ∧ (c.extractLsb' 16 8).toNat = 1 ∧
      (c.extractLsb' 40 3).toNat = 0 ∧ (c.extractLsb' 24 8).toNat = 0 ∧ (c.extractLsb' 32 8).toNat = 0 :=
  ⟨⟨0x00000E630B1F173B, by decide⟩, ⟨0x0000000000010000, by decide⟩⟩

/-- All the hypotheses at their bounds together, the inner ones included. -/
theorem witness_EncodeThenDecodeReturnsTheCalendar :
    ∃ s : State,
      (s.arg.extractLsb' 0 8).toNat = 79 ∧ (s.arg.extractLsb' 8 8).toNat = 39 ∧ (s.arg.extractLsb' 16 8).toNat = 39 ∧
      (s.arg.extractLsb' 24 8).toNat = 18 ∧ (s.arg.extractLsb' 32 8).toNat = 99 ∧ (s.arg.extractLsb' 40 3).toNat = 6 ∧
      (s.arg.extractLsb' 43 2).toNat = 1 ∧ (s.arg.extractLsb' 47 17).toNat = 0 :=
  ⟨{ State.reset with arg := 0x00006E631227274F }, by decide⟩

/-- The scenario block of V1 is a produced block (R36). -/
theorem scenario_block_produced : Produced 0x005CF88132120000 := by constructor <;> decide

/-- An empty Block before an `ENCODE`, and a produced one before an illegal word. -/
theorem witness_StepKeepsTheBlockLifecycle :
    (Lifecycle (presenting 0 0x8000 0x00002E110608090A) ∧
      ∃ t, step (presenting 0 0x8000 0x00002E110608090A) = .next t) ∧
    Lifecycle (presenting 0x005CF88132120000 0xC000 0) ∧ ∃ t, step (presenting 0x005CF88132120000 0xC000 0) = .next t := by
  refine ⟨⟨⟨.inl rfl, ?_⟩, ⟨_, rfl⟩⟩, ⟨.inr scenario_block_produced, ?_⟩, ⟨_, rfl⟩⟩
  · intro c hc i hi
    obtain rfl := List.mem_singleton.1 hc
    rw [show decode 0x8000 = .command .encode by decide] at hi
    cases hi; exact id
  · intro c hc i hi
    obtain rfl := List.mem_singleton.1 hc
    rw [show decode 0xC000 = .illegal .reservedOpcode by decide] at hi
    cases hi

theorem witness_StepKeepsResponsesWellFormed :
    ResponsesWellFormed { presenting 3 0xC000 0 with responses := [⟨0, .illegal⟩, ⟨5, .ok⟩] } ∧
    ∃ t, step { presenting 3 0xC000 0 with responses := [⟨0, .illegal⟩, ⟨5, .ok⟩] } = .next t :=
  ⟨show ∀ r ∈ [(⟨0, .illegal⟩ : Response), ⟨5, .ok⟩], r.st = .illegal → r.res = 0 by decide, ⟨_, rfl⟩⟩

/-- The characters beside the ranges of digits are none. -/
theorem witness_digit_edges :
    hexVal '/' = none ∧ hexVal ':' = none ∧ hexVal '@' = none ∧ hexVal 'G' = none ∧ hexVal '`' = none ∧
    hexVal 'g' = none ∧ hexVal 'f' = some 15 ∧ hexVal 'A' = some 10 := by decide

/-- Fifteen and seventeen characters, and one with both faults; sixteen with one that is no digit; sixteen digits in both cases. -/
theorem witness_FromHexTextChecksAndReads :
    "000000000000000".toList.length ≠ 16 ∧ "00000000000000000".toList.length ≠ 16 ∧
    ("G".toList.length ≠ 16 ∧ ∃ c ∈ "G".toList, hexVal c = none) ∧
    ("000000000000000G".toList.length = 16 ∧ ∃ c ∈ "000000000000000G".toList, hexVal c = none) ∧
    ("00000000000000aF".toList.length = 16 ∧
      "00000000000000aF".toList.map hexVal =
        [(0 : BitVec 4), 0, 0, 0, 0, 0, 0, 0, 0, 0, 0, 0, 0, 0, 10, 15].map some) :=
  ⟨by decide, by decide, ⟨by decide, 'G', by decide, by decide⟩, ⟨by decide, 'G', by decide, by decide⟩, by decide, rfl⟩

theorem witness_AssembledLinesAreLegalCommands :
    (⟨0xA011, 0⟩ : Command) ∈ assemble .split ∧ (⟨0xB008, 0x11⟩ : Command) ∈ assemble (.setf .min 0x11) := by decide

theorem witness_FieldViewsSpellTheStream : 13 < Field.wid .civ ∧ ¬ 14 < Field.wid .civ ∧ 0 < Field.wid .mm := by decide

end Sys2Proof.Tests
end

section
/-! PROOFS. The order of bits and bytes in the Block: what a byte, a `MemRead` and a `MemWrite` are, bit by bit (R9, R23
to R25). -/

namespace Sys2Proof.Machine

/-- Bit `j` of byte `k` is `BLK[8k + j]` (R24). -/
theorem getLsbD_blockByte (b : Word64) (k : Fin 8) {j : Nat} (hj : j < 8) :
    (blockByte b k).getLsbD j = b.getLsbD (8 * k + j) := by
  simp [blockByte, hj]

/-- Stream bit `i` is bit `i mod 8` of byte `i / 8`, least significant bit first (R23, R25). -/
theorem streamBit_eq_blockByte_bit (b : Word64) (i : Fin 60) :
    streamBit b i = (blockByte b ⟨i / 8, by omega⟩).getLsbD (i % 8) := by
  rw [getLsbD_blockByte _ _ (Nat.mod_lt _ (by omega)), Nat.div_add_mod, streamBit]

theorem memRead_of_le (b : Word64) {a n : Nat} (h : a + n ≤ 8) :
    memRead b a n = some (b.extractLsb' (8 * a) (8 * n)) := if_pos h

/-- Outside the eight bytes a read has no value: the model's answer (log entry 8). -/
theorem memRead_of_lt (b : Word64) {a n : Nat} (h : 8 < a + n) : memRead b a n = none := if_neg (by omega)

theorem memWrite_of_le (b : Word64) {a n : Nat} (v : BitVec (8 * n)) (h : a + n ≤ 8) :
    memWrite b a n v = some (insertBits b (8 * a) (8 * n) v) := if_pos h

/-- Outside the eight bytes a write has no result: the model's answer (log entry 8). -/
theorem memWrite_of_lt (b : Word64) {a n : Nat} (v : BitVec (8 * n)) (h : 8 < a + n) : memWrite b a n v = none :=
  if_neg (by omega)

/-- A read inside the Block takes byte `a` least significant (R9, R24). -/
theorem exists_memRead_bits (b : Word64) {a n : Nat} (h : a + n ≤ 8) :
    ∃ r, memRead b a n = some r ∧ ∀ k < 8 * n, r.getLsbD k = b.getLsbD (8 * a + k) := by
  refine ⟨_, memRead_of_le b h, fun k hk => ?_⟩
  simp [hk]

/-- A write inside the Block puts `v` into bytes `a` to `a + n - 1` and changes no other bit (R9, R24). -/
theorem exists_memWrite_bits (b : Word64) {a n : Nat} (v : BitVec (8 * n)) (h : a + n ≤ 8) :
    ∃ w, memWrite b a n v = some w ∧ ∀ k < 64, w.getLsbD k =
      if 8 * a ≤ k ∧ k < 8 * (a + n) then v.getLsbD (k - 8 * a) else b.getLsbD k := by
  refine ⟨_, memWrite_of_le b v h, fun k _ => ?_⟩
  rw [getLsbD_insertBits _ _ _ _ (by omega), Nat.mul_add]

/-- Settles O35: the bits of a byte, of a read and of a write, each by its own lemma. -/
theorem byteAndBitOrderOfTheBlock : Obligations.ByteAndBitOrderOfTheBlock :=
  ⟨fun b i => ⟨rfl, streamBit_eq_blockByte_bit b i⟩,
   fun b k _ hj => getLsbD_blockByte b k hj,
   fun b _ _ v h => ⟨exists_memRead_bits b h, exists_memWrite_bits b v h⟩,
   fun b _ _ v h => ⟨memRead_of_lt b h, memWrite_of_lt b v h⟩⟩

end Sys2Proof.Machine
end

section
/-! PROOFS. A field after an insertion, the same field and another one, and the reserved bits beside them (R28, R29,
R32). -/

namespace Sys2Proof.Machine

/-- Two different fields share no position (R28). -/
theorem fields_disjoint {f g : Field} (h : g ≠ f) : f.off + f.wid ≤ g.off ∨ g.off + g.wid ≤ f.off := by
  have table : ∀ f ∈ Field.all, ∀ g ∈ Field.all, g ≠ f → f.off + f.wid ≤ g.off ∨ g.off + g.wid ≤ f.off := by decide
  exact table f (field_mem_all f) g (field_mem_all g) h

@[simp] theorem getField_zero (f : Field) : getField 0#64 f = 0#f.wid := by
  apply BitVec.eq_of_getLsbD_eq
  intro k _
  simp [getLsbD_getField]

/-- An insertion is read back as the low bits of the value (R32). -/
@[simp] theorem getField_setField_same {n : Nat} (b : Word64) (f : Field) (v : BitVec n) :
    getField (setField b f v) f = v.setWidth f.wid := by
  apply BitVec.eq_of_getLsbD_eq
  intro k hk
  rw [getLsbD_getField, getLsbD_setField, if_pos (by omega)]
  simp [hk]

/-- An insertion leaves every other field (R32). -/
@[simp] theorem getField_setField_of_ne {n : Nat} (b : Word64) {f g : Field} (v : BitVec n) (h : g ≠ f) :
    getField (setField b f v) g = getField b g := by
  refine getField_congr fun k hk => ?_
  have := fields_disjoint h
  rw [getLsbD_setField, if_neg (by omega)]

/-- An insertion leaves bits 60 to 63 (R29, R32). -/
@[simp] theorem reservedBits_setField {n : Nat} (b : Word64) (f : Field) (v : BitVec n) :
    (setField b f v).extractLsb' 60 4 = b.extractLsb' 60 4 := by
  apply BitVec.eq_of_getLsbD_eq
  intro k hk
  have := field_end_le_sixty f
  simp only [BitVec.getLsbD_extractLsb', getLsbD_setField]
  rw [if_neg (by omega)]

end Sys2Proof.Machine
end

section
/-! PROOFS. Every Block that `encode_fn` gives is a produced one (R36, R95): what each part of the encoding (R85) writes
and leaves, and the parity it ends with. -/

namespace Sys2Proof.Machine

/-! ### What the parts of the encoding leave -/

/-- Step 6 writes the three parity bits and no other field. -/
theorem getField_writeParity (t : Word64) {g : Field} (h : g ∉ [Field.p1, .p2, .p3]) :
    getField (writeParity t) g = getField t g := by
  simp only [List.mem_cons, List.not_mem_nil, or_false, not_or] at h
  obtain ⟨h1, h2, h3⟩ := h
  simp [writeParity, h1, h2, h3]

/-- Step 5 writes the six BCD fields and no other field. -/
theorem getField_writeDateTime (c : Cal) (t : Word64) {g : Field}
    (h : g ∉ [Field.min, .hour, .day, .dow, .mon, .year]) : getField (writeDateTime c t) g = getField t g := by
  simp only [List.mem_cons, List.not_mem_nil, or_false, not_or] at h
  obtain ⟨hmin, hhour, hday, hdow, hmon, hyear⟩ := h
  simp [writeDateTime, hmin, hhour, hday, hdow, hmon, hyear]

/-- Steps 1 to 4 leave every field 0 that is not `S`, `A1`, `Z1` or `Z2`. -/
theorem getField_writeMarkers (c : Cal) {g : Field} (h : g ∉ [Field.s, .a1, .z1, .z2]) :
    getField (writeMarkers c) g = 0 := by
  simp only [List.mem_cons, List.not_mem_nil, or_false, not_or] at h
  obtain ⟨hs, ha, h1, h2⟩ := h
  simp [writeMarkers, hs, ha, h1, h2]

/-! ### The fields of an encoded Block -/

/-- The marker half of the telegram stands as steps 1 to 4 wrote it. -/
theorem getField_encodeFn_of_markers (c : Word64) {g : Field}
    (hd : g ∉ [Field.min, .hour, .day, .dow, .mon, .year]) (hp : g ∉ [Field.p1, .p2, .p3]) :
    getField (encodeFn c) g = getField (writeMarkers (calOfWord c)) g := by
  rw [encodeFn, getField_writeParity _ hp, getField_writeDateTime _ _ hd]

/-- The fields nothing writes (R36). -/
theorem getField_encodeFn_unwritten (c : Word64) {g : Field} (h : g ∈ [Field.m, .civ, .r, .a2, .mm]) :
    getField (encodeFn c) g = 0 := by
  have unwritten : ∀ g ∈ [Field.m, .civ, .r, .a2, .mm], g ∉ [Field.min, .hour, .day, .dow, .mon, .year] ∧
      g ∉ [Field.p1, .p2, .p3] ∧ g ∉ [Field.s, .a1, .z1, .z2] := by decide
  obtain ⟨hd, hp, hm⟩ := unwritten g h
  rw [getField_encodeFn_of_markers c hd hp, getField_writeMarkers _ hm]

theorem getField_encodeFn_s (c : Word64) : getField (encodeFn c) .s = 1#1 := by
  rw [getField_encodeFn_of_markers c (by decide) (by decide)]
  simp [writeMarkers, Field.wid]

theorem getField_encodeFn_z1 (c : Word64) : getField (encodeFn c) .z1 = z1Of (calOfWord c).dst := by
  rw [getField_encodeFn_of_markers c (by decide) (by decide)]
  simp [writeMarkers, Field.wid]

theorem getField_encodeFn_z2 (c : Word64) : getField (encodeFn c) .z2 = z2Of (calOfWord c).dst := by
  rw [getField_encodeFn_of_markers c (by decide) (by decide)]
  simp [writeMarkers, Field.wid]

/-- The weekday is a single digit, which its BCD byte does not change (R80, R85). -/
theorem bcdEnc_dowOf (w : BitVec 3) : (bcdEnc ((dowOf w).setWidth 8)).setWidth 3 = dowOf w := by
  revert w; decide

theorem getField_encodeFn_dow (c : Word64) : getField (encodeFn c) .dow = dowOf (calOfWord c).wday := by
  rw [encodeFn, getField_writeParity _ (by decide), writeDateTime, getField_setField_of_ne _ _ (by decide),
    getField_setField_of_ne _ _ (by decide), getField_setField_same]
  exact bcdEnc_dowOf _

theorem reservedBits_encodeFn (c : Word64) : (encodeFn c).extractLsb' 60 4 = 0 := by
  simp [encodeFn, writeParity, writeDateTime, writeMarkers]

/-! ### Produced -/

/-- Exactly one of `Z1` and `Z2` is 1 (R82). -/
theorem z1Of_xor_z2Of (d : BitVec 2) : z1Of d ^^^ z2Of d = 1#1 := by
  revert d; decide

/-- Sunday is written as 7, so no telegram weekday is 0 (R80). -/
theorem dowOf_ne_zero (w : BitVec 3) : dowOf w ≠ 0#3 := by
  unfold dowOf
  split
  · decide
  · assumption

/-- A recomputed parity reads the field alone (R72, R74). -/
theorem fieldParity_writeParity (t : Word64) {g : Field} (h : g ∉ [Field.p1, .p2, .p3]) :
    fieldParity (writeParity t) g = fieldParity t g := by
  rw [fieldParity, getField_writeParity t h, fieldParity]

/-- Storing the recomputed parity bits makes the syndrome zero, because none of them lies in a group that is summed
(R76, R78). -/
theorem synd_writeParity (t : Word64) : synd (writeParity t) = 0 := by
  have h1 : p1c (writeParity t) = p1c t := fieldParity_writeParity t (by decide)
  have h2 : p2c (writeParity t) = p2c t := fieldParity_writeParity t (by decide)
  have h3 : p3c (writeParity t) = p3c t := by
    simp only [p3c]
    rw [fieldParity_writeParity t (by decide), fieldParity_writeParity t (by decide),
      fieldParity_writeParity t (by decide), fieldParity_writeParity t (by decide)]
  rw [synd, h1, h2, h3]
  simp [writeParity, Field.wid]

/-- R36, R95: for every operand, in calendar range or not. -/
theorem produced_encodeFn (c : Word64) : Produced (encodeFn c) where
  m_zero := by rw [getField_encodeFn_unwritten c (by decide)]; rfl
  mm_zero := by rw [getField_encodeFn_unwritten c (by decide)]; rfl
  s_one := by rw [getField_encodeFn_s]; rfl
  z1_xor_z2 := by
    rw [getField_encodeFn_z1, getField_encodeFn_z2]
    exact z1Of_xor_z2Of _
  civ_zero := by rw [getField_encodeFn_unwritten c (by decide)]; rfl
  r_zero := by rw [getField_encodeFn_unwritten c (by decide)]; rfl
  a2_zero := by rw [getField_encodeFn_unwritten c (by decide)]; rfl
  reserved_zero := reservedBits_encodeFn c
  dow_nonzero := by
    rw [getField_encodeFn_dow]
    exact dowOf_ne_zero _
  parity_consistent := synd_writeParity _

end Sys2Proof.Machine
end

section
/-! PROOFS. Who writes `BLK` (R15, R22), and the lifecycle of a Block that only `CLR` and `ENCODE` touch. -/

namespace Sys2Proof.Machine

/-- What a command can do to `BLK`: leave it, or be one of the four writers with that writer's value. -/
theorem exec_blk_cases {i : Instr} {s t : State} (h : exec i s = .next t) :
    t.blk = s.blk ∨ (i = .clr ∧ t.blk = 0) ∨ (i = .ldblk ∧ t.blk = s.arg) ∨
      (i = .encode ∧ t.blk = encodeFn s.arg) ∨
      ∃ fsel f, i = .setf fsel ∧ fieldOf fsel = some f ∧ t.blk = setField s.blk f s.arg := by
  cases i with
  | clr => exact .inr (.inl ⟨rfl, by rw [store_next h]; rfl⟩)
  | ldblk => exact .inr (.inr (.inl ⟨rfl, by rw [store_next h]; rfl⟩))
  | encode => exact .inr (.inr (.inr (.inl ⟨rfl, by rw [store_next h]; rfl⟩)))
  | rdblk | bcdenc | bcddec | par32 | pcalc | synd | decode => exact .inl (by rw [answer_next h]; rfl)
  | getf fsel =>
    simp only [exec, execGetf] at h
    split at h
    · exact .inl (by rw [answer_next h]; rfl)
    · exact .inl (by rw [raiseIllegal_next h]; rfl)
  | setf fsel =>
    simp only [exec, execSetf] at h
    split at h
    next f hf => exact .inr (.inr (.inr (.inr ⟨fsel, f, rfl, hf, by rw [store_next h]; rfl⟩)))
    next => exact .inl (by rw [raiseIllegal_next h]; rfl)

/-- With no command presented the block is idle (R110). -/
theorem step_nil {s : State} (h : s.pending = []) : step s = .next s := by
  simp only [step, present_nil h, idle]

/-- A step takes one command from the host, or none when there is none. -/
theorem step_pending {s t : State} (h : step s = .next t) : t.pending = s.pending.tail := by
  cases hs : s.pending with
  | nil =>
    rw [step_nil hs] at h
    cases h
    exact hs
  | cons c cs =>
    obtain ⟨v, r, st, hstep, -⟩ := step_cons_cases hs
    rw [hstep] at h
    cases h
    rfl

/-- A command that stores no operand unchecked keeps `BLK` empty or produced (R15, R22): `CLR` empties it, `ENCODE`
produces it, the others leave it. -/
theorem exec_keeps_empty_or_produced {i : Instr} {s t : State} (hb : s.blk = 0 ∨ Produced s.blk)
    (hi : ¬ StoresOperand i) (h : exec i s = .next t) : t.blk = 0 ∨ Produced t.blk := by
  obtain hkeep | ⟨-, hclr⟩ | ⟨rfl, -⟩ | ⟨-, henc⟩ | ⟨fsel, f, rfl, -⟩ := exec_blk_cases h
  · rwa [hkeep]
  · exact .inl hclr
  · exact absurd trivial hi
  · exact .inr (henc ▸ produced_encodeFn _)
  · exact absurd trivial hi

/-- The same of a step: idle, an illegal word, or a command. -/
theorem step_keeps_empty_or_produced {s t : State} (hl : Lifecycle s) (h : step s = .next t) :
    t.blk = 0 ∨ Produced t.blk := by
  obtain ⟨hb, hpending⟩ := hl
  cases hs : s.pending with
  | nil =>
    rw [step_nil hs] at h
    cases h
    exact hb
  | cons c cs =>
    rw [step_cons hs] at h
    cases hd : decode c.cw with
    | command i =>
      rw [hd] at h
      exact exec_keeps_empty_or_produced (s := { s with cw := c.cw, arg := c.arg, pending := cs }) hb
        (hpending c (by simp [hs]) i hd) h
    | illegal why =>
      rw [hd] at h
      rw [raiseIllegal_next h]
      exact hb

/-- Settles O46: every step keeps `BLK` empty or produced, and what is pending after it was pending before. -/
theorem stepKeepsTheBlockLifecycle : Obligations.StepKeepsTheBlockLifecycle := by
  intro s t hl h
  have hblk := step_keeps_empty_or_produced hl h
  obtain ⟨-, hpending⟩ := hl
  refine ⟨hblk, fun c hc => hpending c ?_⟩
  rw [step_pending h] at hc
  exact List.mem_of_mem_tail hc

/-- Settles O12: the frame is that of every meaning, and the writers are those of `exec_blk_cases`. -/
theorem onlyFourCommandsChangeBlk : Obligations.OnlyFourCommandsChangeBlk := by
  intro i s t h
  have writers : t.blk ≠ s.blk → i = .clr ∨ i = .ldblk ∨ i = .encode ∨ ∃ fsel, i = .setf fsel := by
    intro hne
    obtain hkeep | ⟨hi, -⟩ | ⟨hi, -⟩ | ⟨hi, -⟩ | ⟨fsel, f, hi, -⟩ := exec_blk_cases h
    · exact absurd hkeep hne
    · exact .inl hi
    · exact .inr (.inl hi)
    · exact .inr (.inr (.inl hi))
    · exact .inr (.inr (.inr ⟨fsel, hi⟩))
  obtain ⟨v, r, st, hexec, -⟩ := exec_cases i s
  rw [hexec] at h
  cases h
  exact ⟨rfl, rfl, rfl, ⟨⟨r, st⟩, rfl⟩, writers⟩

/-- Settles O47: `BLK` is empty and nothing is pending. -/
theorem resetMeetsTheBlockLifecycle : Obligations.ResetMeetsTheBlockLifecycle :=
  ⟨.inl reset_blk, fun c hc => absurd hc (by simp)⟩

/-- Settles O49: `BLK` is the zero word, of which every field is 0. -/
theorem resetLeavesTheBlockEmpty : Obligations.ResetLeavesTheBlockEmpty :=
  ⟨reset_blk, getField_zero, by decide, reset_responses⟩

end Sys2Proof.Machine
end

section
/-! PROOFS. The laws of field insert and extract (R28, R32), completed: the shift-and-mask form, repeated insertion, and
the tiling of the stream. -/

namespace Sys2Proof.Machine

/-- A narrower value moved up, as a number: the form in which R32 writes mask and value. -/
theorem setWidth_shiftLeft_eq_ofNat {w : Nat} (x : BitVec w) (n : Nat) :
    x.setWidth 64 <<< n = BitVec.ofNat 64 (x.toNat * 2 ^ n) := by
  apply BitVec.eq_of_toNat_eq
  simp [Nat.shiftLeft_eq]

/-- The definition of R32 by shift and mask, in numbers. -/
theorem setField_eq_shift_mask {n : Nat} (b : Word64) (f : Field) (v : BitVec n) :
    setField b f v = (b &&& ~~~BitVec.ofNat 64 ((2 ^ f.wid - 1) * 2 ^ f.off)) |||
      BitVec.ofNat 64 (v.toNat % 2 ^ f.wid * 2 ^ f.off) := by
  rw [setField, insertBits, setWidth_shiftLeft_eq_ofNat, setWidth_shiftLeft_eq_ofNat, BitVec.toNat_allOnes,
    BitVec.toNat_setWidth]

/-- Writing a field's own value changes nothing (R32). -/
@[simp] theorem setField_getField (b : Word64) (f : Field) : setField b f (getField b f) = b := by
  apply BitVec.eq_of_getLsbD_eq
  intro k _
  rw [getLsbD_setField, getLsbD_getField]
  split
  · have hwid : k - f.off < f.wid := by omega
    have hpos : f.off + (k - f.off) = k := by omega
    simp [hwid, hpos]
  · rfl

/-- Of two insertions into one field the last stands. -/
@[simp] theorem setField_setField_same {m n : Nat} (b : Word64) (f : Field) (w : BitVec m) (v : BitVec n) :
    setField (setField b f w) f v = setField b f v := by
  apply BitVec.eq_of_getLsbD_eq
  intro k _
  simp only [getLsbD_setField]
  split <;> rfl

/-- Settles O34: each law by its own lemma. -/
theorem setFieldLaws : Obligations.SetFieldLaws := fun _ b f v =>
  ⟨setField_eq_shift_mask b f v, getField_setField_same b f v, fun _ h => getField_setField_of_ne b v h,
    setField_getField b f, reservedBits_setField b f v⟩

/-- No stream position lies in two fields (R28). -/
theorem field_unique {f g : Field} {i : Nat} (hf : f.off ≤ i ∧ i < f.off + f.wid)
    (hg : g.off ≤ i ∧ i < g.off + g.wid) : g = f := by
  by_contra h
  have := fields_disjoint h
  omega

/-- Every stream position lies in a field (R28). -/
theorem exists_field_of_lt_sixty : ∀ i < 60, ∃ f ∈ Field.all, f.off ≤ i ∧ i < f.off + f.wid := by decide

/-- Settles O32: the sums and the chain of offsets are read off the table; a position's field is one and only one. -/
theorem fieldsTileTheStream : Obligations.FieldsTileTheStream := by
  refine ⟨rfl, rfl, rfl, rfl, by decide, fun i hi => ?_⟩
  obtain ⟨f, hmem, hf⟩ := exists_field_of_lt_sixty i hi
  exact ⟨f, hmem, hf, fun _ _ hg => field_unique hf hg⟩

end Sys2Proof.Machine
end

section
/-! PROOFS. A presented command by the verdict on its word (R47, R52), and `GETF` with the words of its opcode (R96). -/

namespace Sys2Proof.Machine

/-- A legal word runs its command on the presented ports. -/
theorem step_of_command {s : State} {c : Command} {cs : List Command} {i : Instr} (hs : s.pending = c :: cs)
    (hd : decode c.cw = .command i) : step s = exec i { s with cw := c.cw, arg := c.arg, pending := cs } := by
  rw [step_cons hs, hd]

/-- An illegal word answers the exception's response and leaves `BLK` (R103). -/
theorem step_of_illegal {s : State} {c : Command} {cs : List Command} {why : IllegalReason} (hs : s.pending = c :: cs)
    (hd : decode c.cw = .illegal why) :
    step s = .next (respond 0 .illegal { s with cw := c.cw, arg := c.arg, pending := cs }) := by
  rw [step_cons hs, hd, raiseIllegal_eq]

/-- Settles O6: the step of a presented legal word. -/
theorem stepRunsTheDecodedCommand : Obligations.StepRunsTheDecodedCommand :=
  fun _ _ _ _ hs hd => step_of_command hs hd

/-- A word of opcode `0xA` is read as a field command. -/
theorem decode_of_opOf_getf {cw : CmdWord} (h : opOf cw = 0xA#4) : decode cw = fieldCommand .getf cw := by
  simp only [decode, h]

/-- The legal words among the field commands (R52). -/
theorem fieldCommand_of_legal (mk : BitVec 5 → Instr) {cw : CmdWord} (hz : zeroOf cw = 0)
    (hf : fselInRange (fselOf cw) = true) : fieldCommand mk cw = .command (mk (fselOf cw)) := by
  simp [fieldCommand, hz, hf]

/-- The illegal words among the field commands: a selector above 17 or a `ZERO` field that is not 0 (R53). -/
theorem fieldCommand_of_illegal (mk : BitVec 5 → Instr) {cw : CmdWord}
    (h : 18 ≤ (fselOf cw).toNat ∨ zeroOf cw ≠ 0) : ∃ why, fieldCommand mk cw = .illegal why := by
  by_cases hz : zeroOf cw = 0
  · have hf : ¬ fselInRange (fselOf cw) = true := by
      rw [fselInRange_iff]
      exact (h.resolve_right (absurd hz)).not_gt
    exact ⟨.fselOutOfRange, by simp [fieldCommand, hz, hf]⟩
  · exact ⟨.zeroFieldSet, if_pos hz⟩

/-- `GETF` with a selector that names a field (R96). -/
theorem exec_getf_of_some {fsel : BitVec 5} {f : Field} (h : fieldOf fsel = some f) (s : State) :
    exec (.getf fsel) s = answer (zext64 (getField s.blk f)) s := by
  simp only [exec, execGetf, h]

/-- `GETF` with a selector that names none: the model's arm for a term no word decodes to (log entry 7). -/
theorem exec_getf_of_none {fsel : BitVec 5} (h : fieldOf fsel = none) (s : State) :
    exec (.getf fsel) s = raiseIllegal s := by
  simp only [exec, execGetf, h]

/-- The word of `GETF f` is `0xA000` plus the field number (R48, R51). -/
theorem encode_getf_number (f : Field) : encode (.getf f.number) = 0xA000#16 + f.number.setWidth 16 := by
  cases f <;> decide

/-- A field as the 64-bit result of R31. -/
theorem zext64_getField (b : Word64) (f : Field) :
    zext64 (getField b f) = BitVec.ofNat 64 (b.toNat / 2 ^ f.off % 2 ^ f.wid) := by
  rw [zext64_eq, getField_toNat]

theorem exec_getf_ok {fsel : BitVec 5} (h : fselInRange fsel = true) (s : State) :
    ∃ v r, exec (.getf fsel) s = .next (respond r .ok (writeBlk v s)) := by
  obtain ⟨f, hf⟩ := fieldOf_eq_some h
  exact ⟨s.blk, _, exec_getf_of_some hf s⟩

/-- A presented field command is illegal for a selector above 17 or a `ZERO` field that is not 0, and for no other reason
(R53), given that its meaning answers `OK` for every selector in range. -/
theorem step_fieldCommand_illegal_iff {mk : BitVec 5 → Instr}
    (hok : ∀ fsel, fselInRange fsel = true → ∀ s, ∃ v r, exec (mk fsel) s = .next (respond r .ok (writeBlk v s)))
    {s : State} {c : Command} {cs : List Command} (hs : s.pending = c :: cs) (hd : decode c.cw = fieldCommand mk c.cw) :
    ∃ t r, step s = .next t ∧ t.responses = s.responses ++ [r] ∧
      (r.st = .illegal ↔ 18 ≤ (fselOf c.cw).toNat ∨ zeroOf c.cw ≠ 0) := by
  by_cases h : 18 ≤ (fselOf c.cw).toNat ∨ zeroOf c.cw ≠ 0
  · obtain ⟨why, hwhy⟩ := fieldCommand_of_illegal mk h
    exact ⟨_, _, step_of_illegal hs (hd.trans hwhy), rfl, iff_of_true rfl h⟩
  · obtain ⟨hf, hz⟩ := not_or.1 h
    have hrange := (fselInRange_iff _).2 (not_le.1 hf)
    have hcommand := hd.trans (fieldCommand_of_legal mk (not_not.1 hz) hrange)
    obtain ⟨v, r, hexec⟩ := hok _ hrange { s with cw := c.cw, arg := c.arg, pending := cs }
    exact ⟨_, _, (step_of_command hs hcommand).trans hexec, rfl, iff_of_false nofun h⟩

/-- Settles O23: the value by R31, the two sides of the selector's bound, and the words of the opcode. -/
theorem getfReturnsTheField : Obligations.GetfReturnsTheField := by
  refine ⟨fun f => ⟨encode_getf_number f, fun s => ?_⟩, fun fsel s h => ?_, fun s c cs hs hop => ?_⟩
  · rw [exec_getf_of_some (fieldOf_number f), zext64_getField, answer_eq]
    rfl
  · rw [exec_getf_of_none (fieldOf_eq_none h), raiseIllegal_eq]
    rfl
  · exact step_fieldCommand_illegal_iff (fun _ => exec_getf_ok) hs (decode_of_opOf_getf hop)

end Sys2Proof.Machine
end

section
/-! PROOFS. A command issued twice (R34), and the reserved bits 60 to 63 (R29). -/

namespace Sys2Proof.Machine

theorem exec_setf_of_some {fsel : BitVec 5} {f : Field} (h : fieldOf fsel = some f) (s : State) :
    exec (.setf fsel) s = store (setField s.blk f s.arg) s := by
  simp only [exec, execSetf, h]

/-- `SETF` with a selector that names no field: the model's arm for a term no word decodes to (log entry 7). -/
theorem exec_setf_of_none {fsel : BitVec 5} (h : fieldOf fsel = none) (s : State) :
    exec (.setf fsel) s = raiseIllegal s := by
  simp only [exec, execSetf, h]

/-- A command that has just run, run again on its own next state with the same `ARG`: the same `BLK` is written and the
same response given. A reader finds the `BLK` it left; of the writers only `SETF` reads `BLK`, and what it inserts stands
there already. -/
theorem exec_twice (i : Instr) (s : State) :
    ∃ v r st, exec i s = .next (respond r st (writeBlk v s)) ∧
      exec i (respond r st (writeBlk v s)) = .next (respond r st (writeBlk v (respond r st (writeBlk v s)))) := by
  cases i with
  | clr | ldblk | encode => exact ⟨_, _, .ok, rfl, rfl⟩
  | rdblk | bcdenc | bcddec | par32 | pcalc | synd | decode => exact ⟨s.blk, _, .ok, rfl, rfl⟩
  | getf fsel =>
    cases h : fieldOf fsel with
    | some f => exact ⟨s.blk, _, .ok, exec_getf_of_some h s, exec_getf_of_some h _⟩
    | none => exact ⟨s.blk, 0, .illegal, exec_getf_of_none h s, exec_getf_of_none h _⟩
  | setf fsel =>
    cases h : fieldOf fsel with
    | some f =>
      refine ⟨setField s.blk f s.arg, _, .ok, exec_setf_of_some h s, ?_⟩
      rw [exec_setf_of_some h, store_eq, respond_blk, respond_arg, writeBlk_blk, writeBlk_arg, setField_setField_same]
    | none => exact ⟨s.blk, 0, .illegal, exec_setf_of_none h s, exec_setf_of_none h _⟩

/-- Settles O26: both executions write one `BLK` and give one response. -/
theorem commandsAreIdempotent : Obligations.CommandsAreIdempotent := by
  intro i s
  obtain ⟨v, r, st, hfirst, hagain⟩ := exec_twice i s
  exact ⟨_, _, ⟨r, st⟩, hfirst, hagain, rfl, rfl, rfl⟩

/-- A command other than `CLR`, `LDBLK` and `ENCODE` leaves bits 60 to 63; `SETF` does so because no field reaches them
(R29). -/
theorem exec_keeps_reservedBits {i : Instr} {s t : State} (hclr : i ≠ .clr) (henc : i ≠ .encode) (hld : i ≠ .ldblk)
    (h : exec i s = .next t) : t.blk.extractLsb' 60 4 = s.blk.extractLsb' 60 4 := by
  obtain hkeep | ⟨hi, -⟩ | ⟨hi, -⟩ | ⟨hi, -⟩ | ⟨_, f, -, -, hset⟩ := exec_blk_cases h
  · rw [hkeep]
  · exact absurd hi hclr
  · exact absurd hi hld
  · exact absurd hi henc
  · rw [hset, reservedBits_setField]

/-- Bits 60 to 63 after each command (R29). -/
theorem exec_reservedBits {i : Instr} {s t : State} (h : exec i s = .next t) :
    t.blk.extractLsb' 60 4 =
      (if i = .clr ∨ i = .encode then 0
       else if i = .ldblk then s.arg.extractLsb' 60 4
       else s.blk.extractLsb' 60 4) := by
  split_ifs with hzero hld
  · obtain rfl | rfl := hzero
    · rw [store_next h]
      exact BitVec.extractLsb'_zero
    · rw [store_next h]
      exact reservedBits_encodeFn s.arg
  · subst hld
    rw [store_next h]
    rfl
  · obtain ⟨hclr, henc⟩ := not_or.1 hzero
    exact exec_keeps_reservedBits hclr henc hld h

/-! ### What reads the Block through its fields -/

/-- No field reaches past bit 59 (R29). -/
theorem getField_eq_of_stream_eq {a b : Word64} (h : a.extractLsb' 0 60 = b.extractLsb' 0 60) (f : Field) :
    getField a f = getField b f := by
  refine getField_congr fun k hk => ?_
  have hend := field_end_le_sixty f
  have hbit := congrArg (·.getLsbD (f.off + k)) h
  have hlt : f.off + k < 60 := by omega
  simpa [hlt] using hbit

theorem fieldParity_congr {a b : Word64} {f : Field} (h : getField a f = getField b f) :
    fieldParity a f = fieldParity b f := by
  rw [fieldParity, h, fieldParity]

theorem pcalc_congr {a b : Word64} (h : ∀ f, getField a f = getField b f) : pcalc a = pcalc b := by
  simp only [pcalc, p1c, p2c, p3c, fieldParity_congr (h _)]

theorem synd_congr {a b : Word64} (h : ∀ f, getField a f = getField b f) : synd a = synd b := by
  simp only [synd, p1c, p2c, p3c, fieldParity_congr (h _), h]

theorem decodeFn_congr {a b : Word64} (h : ∀ f, getField a f = getField b f) : decodeFn a = decodeFn b := by
  simp only [decodeFn, decodeField, monthOf, wdayOf, dstOf, h]

/-- Two states that differ in `BLK` and are answered alike get one response. -/
theorem answer_same_response {r r' : Word64} (h : r' = r) (s : State) (b : Word64) :
    ∃ t u q, answer r s = .next t ∧ answer r' { s with blk := b } = .next u ∧
      t.responses = s.responses ++ [q] ∧ u.responses = s.responses ++ [q] :=
  ⟨_, _, ⟨r, .ok⟩, rfl, by rw [h]; rfl, rfl, rfl⟩

/-- Only `RDBLK` and `SETF` return bits 60 to 63: every other response is made of the operand or of fields (R29). -/
theorem exec_response_of_stream_eq {i : Instr} {s : State} {b : Word64} (hrd : i ≠ .rdblk)
    (hset : ∀ fsel, i ≠ .setf fsel) (hb : b.extractLsb' 0 60 = s.blk.extractLsb' 0 60) :
    ∃ t u r, exec i s = .next t ∧ exec i { s with blk := b } = .next u ∧
      t.responses = s.responses ++ [r] ∧ u.responses = s.responses ++ [r] := by
  have hfields := getField_eq_of_stream_eq hb
  cases i with
  | clr | ldblk | encode => exact ⟨_, _, _, rfl, rfl, rfl, rfl⟩
  | bcdenc | bcddec | par32 => exact answer_same_response rfl s b
  | pcalc => exact answer_same_response (congrArg zext64 (pcalc_congr hfields)) s b
  | synd => exact answer_same_response (congrArg zext64 (synd_congr hfields)) s b
  | decode => exact answer_same_response (decodeFn_congr hfields) s b
  | getf fsel =>
    cases h : fieldOf fsel with
    | some f =>
      rw [exec_getf_of_some h, exec_getf_of_some h]
      exact answer_same_response (congrArg zext64 (hfields f)) s b
    | none =>
      rw [exec_getf_of_none h, exec_getf_of_none h]
      exact ⟨_, _, _, rfl, rfl, rfl, rfl⟩
  | rdblk => exact absurd rfl hrd
  | setf fsel => exact absurd rfl (hset fsel)

/-- Settles O27: where the fields end, what each command leaves in bits 60 to 63, and which responses show them. -/
theorem reservedBitsAreCarriedAndNotInterpreted : Obligations.ReservedBitsAreCarriedAndNotInterpreted :=
  ⟨field_end_le_sixty, fun _ _ _ h => exec_reservedBits h, fun _ => rfl,
    fun _ _ _ hrd hset hb => exec_response_of_stream_eq hrd hset hb⟩

end Sys2Proof.Machine
end

section
/-! PROOFS. The date and time fields of an encoded Block (R83, R85) and their values in calendar range (R37). -/

namespace Sys2Proof.Machine

/-- A date or time field stands as step 5 wrote it. -/
theorem getField_encodeFn_of_dateTime (c : Word64) {g : Field} (hp : g ∉ [Field.p1, .p2, .p3]) :
    getField (encodeFn c) g = getField (writeDateTime (calOfWord c) (writeMarkers (calOfWord c))) g := by
  rw [encodeFn, getField_writeParity _ hp]

theorem getField_encodeFn_min_toNat (c : Word64) :
    (getField (encodeFn c) .min).toNat = (bcdEnc (c.extractLsb' 0 8)).toNat % 2 ^ 7 := by
  rw [getField_encodeFn_of_dateTime c (by decide)]
  simp [writeDateTime, calOfWord, Field.wid]

theorem getField_encodeFn_hour_toNat (c : Word64) :
    (getField (encodeFn c) .hour).toNat = (bcdEnc (c.extractLsb' 8 8)).toNat % 2 ^ 6 := by
  rw [getField_encodeFn_of_dateTime c (by decide)]
  simp [writeDateTime, calOfWord, Field.wid]

theorem getField_encodeFn_day_toNat (c : Word64) :
    (getField (encodeFn c) .day).toNat = (bcdEnc (c.extractLsb' 16 8)).toNat % 2 ^ 6 := by
  rw [getField_encodeFn_of_dateTime c (by decide)]
  simp [writeDateTime, calOfWord, Field.wid]

theorem getField_encodeFn_mon_toNat (c : Word64) :
    (getField (encodeFn c) .mon).toNat = (monthByte (c.extractLsb' 24 8)).toNat % 2 ^ 5 := by
  rw [getField_encodeFn_of_dateTime c (by decide)]
  simp [writeDateTime, calOfWord, Field.wid]

theorem getField_encodeFn_year_toNat (c : Word64) :
    (getField (encodeFn c) .year).toNat = (bcdEnc (c.extractLsb' 32 8)).toNat := by
  rw [getField_encodeFn_of_dateTime c (by decide)]
  simp [writeDateTime, calOfWord, Field.wid]

/-- Settles O43: a member in range is below 100, and its two-digit code fits the field. -/
theorem inCalendarRangeNothingIsTruncated : Obligations.InCalendarRangeNothingIsTruncated := by
  intro c mem fld hmin hhour _ hday _ hmon hyear
  have hdow : (getField (encodeFn c) .dow).toNat ≠ 0 := fun h => by
    rw [getField_encodeFn_dow] at h
    exact dowOf_ne_zero _ (BitVec.eq_of_toNat_eq h)
  have hdow' : (getField (encodeFn c) .dow).toNat < 2 ^ 3 := (getField (encodeFn c) .dow).isLt
  simp only [fld, mem] at *
  rw [getField_encodeFn_min_toNat, getField_encodeFn_hour_toNat, getField_encodeFn_day_toNat,
    getField_encodeFn_mon_toNat, getField_encodeFn_year_toNat, monthByte_toNat]
  simp only [bcdEnc_toNat]
  refine ⟨?_, ?_, ?_, ?_, ?_, ?_, ?_⟩ <;> omega

end Sys2Proof.Machine
end

section
/-! PROOFS. Hex text (R38 to R41): the value a list of digits spells, the digits, the two errors, and the round trip. -/

namespace Sys2Proof.Machine

/-- Taking in one digit below those already read, on numbers (R39). -/
theorem shiftLeft_or_digit (a : Nat) (v : BitVec 4) :
    (BitVec.ofNat 64 a <<< 4) ||| v.setWidth 64 = BitVec.ofNat 64 (16 * a + v.toNat) := by
  have hsum : 16 * a + v.toNat = a <<< 4 ||| v.toNat := by
    rw [← Nat.shiftLeft_add_eq_or_of_lt v.isLt, Nat.shiftLeft_eq, Nat.mul_comm]
  rw [hsum]
  apply BitVec.eq_of_getLsbD_eq
  intro k hk
  have hk' : k - 4 < 64 := by omega
  simp only [BitVec.getLsbD_or, BitVec.getLsbD_shiftLeft, BitVec.getLsbD_setWidth, BitVec.getLsbD_ofNat,
    Nat.testBit_or, Nat.testBit_shiftLeft, BitVec.testBit_toNat]
  rcases lt_or_ge k 4 with h4 | h4
  · simp [hk, h4]
  · simp [hk, hk', h4, h4.not_gt]

theorem readHex_cons_of_some {c : Char} {v : BitVec 4} (h : hexVal c = some v) (a : Nat) (cs : List Char) :
    readHex (BitVec.ofNat 64 a) (c :: cs) = readHex (BitVec.ofNat 64 (16 * a + v.toNat)) cs := by
  simp only [readHex, h, shiftLeft_or_digit]

/-- A list of digits is read as the number they spell, the first most significant (R39). -/
theorem readHex_of_digits {text : List Char} {ds : List (BitVec 4)} (h : text.map hexVal = ds.map some) (a : Nat) :
    readHex (BitVec.ofNat 64 a) text = .ok (BitVec.ofNat 64 (ds.foldl (fun acc d => 16 * acc + d.toNat) a)) := by
  induction text generalizing ds a with
  | nil =>
    obtain rfl : ds = [] := by simpa using h
    rfl
  | cons c cs ih =>
    cases ds with
    | nil => simp at h
    | cons d ds =>
      obtain ⟨hc, hcs⟩ : hexVal c = some d ∧ cs.map hexVal = ds.map some := by simpa using h
      rw [readHex_cons_of_some hc, ih hcs, List.foldl_cons]

/-- One character that is no digit makes the whole text invalid, whatever stands before it (R39). -/
theorem readHex_of_invalid_digit {text : List Char} (h : ∃ c ∈ text, hexVal c = none) (acc : Word64) :
    readHex acc text = .error .invalidDigit := by
  induction text generalizing acc with
  | nil => simp at h
  | cons c cs ih =>
    cases hc : hexVal c with
    | none => simp only [readHex, hc]
    | some v =>
      have htail : ∃ c ∈ cs, hexVal c = none := by simpa [hc] using h
      simp only [readHex, hc, ih htail]

theorem fromHexText_of_length_ne {text : List Char} (h : text.length ≠ 16) :
    fromHexText text = .error .invalidLength := if_pos h

theorem fromHexText_of_length_eq {text : List Char} (h : text.length = 16) : fromHexText text = readHex 0 text :=
  if_neg (not_not.2 h)

/-! ### The characters that are digits -/

/-- The characters without a value are those outside the three ranges (R38). -/
theorem hexVal_eq_none_iff_toNat (c : Char) : hexVal c = none ↔
    ¬ ((48 ≤ c.toNat ∧ c.toNat ≤ 57) ∨ (65 ≤ c.toNat ∧ c.toNat ≤ 70) ∨ (97 ≤ c.toNat ∧ c.toNat ≤ 102)) := by
  unfold hexVal
  split_ifs <;> simp [*]

/-- The three ranges hold the 22 characters and no other. -/
theorem mem_hexChars_iff_toNat (c : Char) : c ∈ "0123456789ABCDEFabcdef".toList ↔
    (48 ≤ c.toNat ∧ c.toNat ≤ 57) ∨ (65 ≤ c.toNat ∧ c.toNat ≤ 70) ∨ (97 ≤ c.toNat ∧ c.toNat ≤ 102) := by
  have hcodes : "0123456789ABCDEFabcdef".toList.map Char.toNat =
      [48, 49, 50, 51, 52, 53, 54, 55, 56, 57, 65, 66, 67, 68, 69, 70, 97, 98, 99, 100, 101, 102] := by decide
  have hinj : Function.Injective Char.toNat := fun _ _ => Char.toNat_inj.1
  rw [← List.mem_map_of_injective hinj, hcodes]
  simp only [List.mem_cons, List.not_mem_nil, or_false]
  omega

/-- The digits are the 22 characters (R38, R39). -/
theorem hexVal_eq_none_iff (c : Char) : hexVal c = none ↔ c ∉ "0123456789ABCDEFabcdef".toList := by
  rw [hexVal_eq_none_iff_toNat, mem_hexChars_iff_toNat]

/-- Settles O51: the length first, then the digits, and the value they spell. -/
theorem fromHexTextChecksAndReads : Obligations.FromHexTextChecksAndReads := by
  refine ⟨fun text => ⟨fromHexText_of_length_ne, fun hlen hbad => ?_, fun ds hlen hds => ?_⟩,
    by decide, by decide, hexVal_eq_none_iff⟩
  · rw [fromHexText_of_length_eq hlen, readHex_of_invalid_digit hbad]
  · rw [fromHexText_of_length_eq hlen]
    exact readHex_of_digits hds 0

/-! ### The round trip -/

/-- The `n` low digits of a Block, read after `a`, spell `a` moved up by `n` digits and the Block's `n` low digits. -/
theorem readHex_hexDigits (b : Word64) (n a : Nat) :
    readHex (BitVec.ofNat 64 a) (hexDigits b n) = .ok (BitVec.ofNat 64 (16 ^ n * a + b.toNat % 16 ^ n)) := by
  induction n generalizing a with
  | zero => simp [hexDigits, readHex, Nat.mod_one]
  | succ n ih =>
    have hdigit : (b.extractLsb' (4 * n) 4).toNat = b.toNat / 16 ^ n % 16 := by
      simp [Nat.shiftRight_eq_div_pow, Nat.pow_mul]
    have hsum : 16 ^ n * (16 * a + b.toNat / 16 ^ n % 16) + b.toNat % 16 ^ n =
        16 ^ (n + 1) * a + b.toNat % 16 ^ (n + 1) := by
      rw [Nat.mod_pow_succ, Nat.pow_succ]
      ring
    rw [hexDigits, readHex_cons_of_some (hexVal_hexDigit _), ih, hdigit, hsum]

/-- Settles O50: all 16 digits are read, and they spell the whole Block. -/
theorem hexTextRoundTrip : Obligations.HexTextRoundTrip := by
  intro b
  have hall : b.toNat % 16 ^ 16 = b.toNat := Nat.mod_eq_of_lt b.isLt
  refine (fromHexText_of_length_eq (hexDigits_length b 16)).trans ((readHex_hexDigits b 16 0).trans ?_)
  rw [hall, Nat.mul_zero, Nat.zero_add, BitVec.ofNat_toNat, BitVec.setWidth_eq]

end Sys2Proof.Machine
end

section
/-! PROOFS. The decoder said once, by opcode; the encoder as its inverse on the well-formed instructions, and the legal
words (R48, R51, R52, R53). -/

namespace Sys2Proof.Machine

/-! ### What the decoder reads -/

/-- Everything the decoder does, by opcode (R51, R53): a plain command, a field command, or a reserved opcode, each with
the word its instructions are encoded as. -/
theorem decode_cases (cw : CmdWord) :
    (∃ i, opOf cw ≤ 0x9#4 ∧ i.wellFormed = true ∧ encode i = commandWord (opOf cw) 0 ∧ decode cw = plainCommand i cw) ∨
    (∃ mk, (opOf cw = 0xA#4 ∨ opOf cw = 0xB#4) ∧ (∀ fsel, (mk fsel).wellFormed = fselInRange fsel) ∧
      (∀ fsel, encode (mk fsel) = commandWord (opOf cw) fsel) ∧ decode cw = fieldCommand mk cw) ∨
    (0xC#4 ≤ opOf cw ∧ decode cw = .illegal .reservedOpcode) := by
  unfold decode
  generalize opOf cw = op
  split
  case h_11 | h_12 => exact .inr (.inl ⟨_, by decide, fun _ => rfl, fun _ => rfl, rfl⟩)
  case h_13 => exact .inr (.inr ⟨by revert op; decide, rfl⟩)
  all_goals exact .inl ⟨_, by decide, rfl, rfl, rfl⟩

/-- A plain command is read from a word whose `ZERO` and `FSEL` are 0, and from no other (R52). -/
theorem plainCommand_eq_command_iff {i j : Instr} {cw : CmdWord} :
    plainCommand i cw = .command j ↔ (zeroOf cw = 0 ∧ fselOf cw = 0) ∧ i = j := by
  unfold plainCommand
  split_ifs with hz hf
  · exact iff_of_false nofun fun h => hz h.1.1
  · exact iff_of_false nofun fun h => hf h.1.2
  · simp [not_not.1 hz, not_not.1 hf]

/-- A field command is read from a word whose `ZERO` is 0 and whose selector names a field, and from no other (R52). -/
theorem fieldCommand_eq_command_iff {mk : BitVec 5 → Instr} {j : Instr} {cw : CmdWord} :
    fieldCommand mk cw = .command j ↔ (zeroOf cw = 0 ∧ fselInRange (fselOf cw) = true) ∧ mk (fselOf cw) = j := by
  unfold fieldCommand
  split_ifs with hz hf
  · exact iff_of_false nofun fun h => hz h.1.1
  · simp [not_not.1 hz, hf]
  · exact iff_of_false nofun fun h => hf h.1.2

/-- A word of opcode `0xB` is read as a field command. -/
theorem decode_of_opOf_setf {cw : CmdWord} (h : opOf cw = 0xB#4) : decode cw = fieldCommand .setf cw := by
  simp only [decode, h]

/-- A field command's word with a selector in range is read as that command, for an opcode read as field commands. -/
theorem decode_commandWord_of_inRange {mk : BitVec 5 → Instr} {op : BitVec 4} {fsel : BitVec 5}
    (hop : ∀ cw, opOf cw = op → decode cw = fieldCommand mk cw) (h : fselInRange fsel = true) :
    decode (commandWord op fsel) = .command (mk fsel) := by
  rw [hop _ (opOf_commandWord op fsel), fieldCommand_eq_command_iff, fselOf_commandWord]
  exact ⟨⟨zeroOf_commandWord op fsel, h⟩, rfl⟩

/-- A well-formed instruction is read back from its word (R48, R51). -/
theorem decode_encode {i : Instr} (h : i.wellFormed = true) : decode (encode i) = .command i := by
  cases i with
  | getf fsel => exact decode_commandWord_of_inRange (fun _ => decode_of_opOf_getf) h
  | setf fsel => exact decode_commandWord_of_inRange (fun _ => decode_of_opOf_setf) h
  | clr | ldblk | rdblk | bcdenc | bcddec | par32 | pcalc | synd | encode | decode => decide

/-- The decoder reads an instruction from its own word only, and only a well-formed one (R47, R52). -/
theorem decode_eq_command_iff {cw : CmdWord} {i : Instr} :
    decode cw = .command i ↔ i.wellFormed = true ∧ encode i = cw := by
  refine ⟨fun h => ?_, fun ⟨hwf, henc⟩ => henc ▸ decode_encode hwf⟩
  obtain ⟨j, -, hwf, henc, hd⟩ | ⟨mk, -, hwf, henc, hd⟩ | ⟨-, hd⟩ := decode_cases cw
  · obtain ⟨⟨hz, hf⟩, rfl⟩ := plainCommand_eq_command_iff.1 (hd.symm.trans h)
    exact ⟨hwf, by rw [henc, ← hf, commandWord_of_fields hz]⟩
  · obtain ⟨⟨hz, hf⟩, rfl⟩ := fieldCommand_eq_command_iff.1 (hd.symm.trans h)
    exact ⟨by rw [hwf, hf], by rw [henc, commandWord_of_fields hz]⟩
  · exact nomatch hd.symm.trans h

/-- Settles O1: an encoded well-formed instruction is read back, constructor by constructor. -/
theorem decodeOfEncodeIsTheInstruction : Obligations.DecodeOfEncodeIsTheInstruction := fun _ => decode_encode

/-- Settles O2: the word is put together again from its opcode and selector. -/
theorem encodeOfDecodeIsTheWord : Obligations.EncodeOfDecodeIsTheWord := fun _ _ => decode_eq_command_iff.1

/-- Settles O5: each written word is evaluated. -/
theorem writtenWordsDecode : Obligations.WrittenWordsDecode := by
  unfold Obligations.WrittenWordsDecode
  decide

/-! ### The legal words -/

/-- Legality by the three fields of the word (R48, R52). -/
theorem legal_iff (cw : CmdWord) : Legal cw ↔
    (opOf cw ≤ 0x9#4 ∧ zeroOf cw = 0 ∧ fselOf cw = 0) ∨
      ((opOf cw = 0xA#4 ∨ opOf cw = 0xB#4) ∧ zeroOf cw = 0 ∧ (fselOf cw).toNat ≤ 17) :=
  or_congr_left (and_congr_right' (lowTwelve_eq_zero_iff cw))

/-- The opcodes are plain, field or reserved ones, and only one of these (R51). -/
theorem opcode_ranges (op : BitVec 4) :
    (op ≤ 0x9#4 → ¬ (op = 0xA#4 ∨ op = 0xB#4)) ∧ (0xC#4 ≤ op ↔ ¬ op ≤ 0x9#4 ∧ ¬ (op = 0xA#4 ∨ op = 0xB#4)) := by
  revert op
  decide

/-- The decoder reads a command from the legal words and from no other (R52). -/
theorem exists_decode_eq_command_iff_legal (cw : CmdWord) : (∃ i, decode cw = .command i) ↔ Legal cw := by
  obtain ⟨hplain, hreserved⟩ := opcode_ranges (opOf cw)
  rw [legal_iff]
  obtain ⟨j, hop, -, -, hd⟩ | ⟨mk, hop, -, -, hd⟩ | ⟨hop, hd⟩ := decode_cases cw
  · simp [hd, plainCommand_eq_command_iff, hop, hplain hop]
  · have hnot : ¬ opOf cw ≤ 0x9#4 := fun h => hplain h hop
    simp [hd, fieldCommand_eq_command_iff, hop, hnot, fselInRange_iff, Nat.lt_succ_iff]
  · obtain ⟨hp, hf⟩ := hreserved.1 hop
    simp [hd, hp, hf]

/-- A word has one verdict of the two. -/
theorem exists_decode_eq_illegal_iff (cw : CmdWord) :
    (∃ why, decode cw = .illegal why) ↔ ¬ ∃ i, decode cw = .command i := by
  cases decode cw <;> simp

/-- Every number 0..17 is the number of a field (R54). -/
theorem exists_field_number_eq : ∀ fsel : BitVec 5, fsel.toNat ≤ 17 → ∃ f ∈ Field.all, f.number = fsel := by decide

theorem number_inRange (f : Field) : fselInRange f.number = true := by cases f <;> decide

/-- The ten commands without a selector (R51). -/
def plainInstrs : List Instr :=
  [.clr, .ldblk, .rdblk, .bcdenc, .bcddec, .par32, .pcalc, .synd, .encode, .decode]

/-- The commands of the block, every field selector once: 10 + 18 + 18 of them (R52). -/
def legalInstrs : List Instr :=
  plainInstrs ++ (Field.all.map fun f => .getf f.number) ++ Field.all.map fun f => .setf f.number

/-- The list holds the well-formed instructions and no other. -/
theorem mem_legalInstrs_iff (i : Instr) : i ∈ legalInstrs ↔ i.wellFormed = true := by
  have selector (fsel : BitVec 5) : (∃ f ∈ Field.all, f.number = fsel) ↔ fselInRange fsel = true := by
    refine ⟨?_, fun h => exists_field_number_eq fsel (Nat.lt_succ_iff.1 ((fselInRange_iff fsel).1 h))⟩
    rintro ⟨f, -, rfl⟩
    exact number_inRange f
  cases i with
  | getf fsel | setf fsel => simpa [legalInstrs, plainInstrs, Instr.wellFormed] using selector fsel
  | clr | ldblk | rdblk | bcdenc | bcddec | par32 | pcalc | synd | encode | decode => decide

/-- Settles O3: the words are those of the 46 instructions, and two of them differ because the decoder tells them
apart. -/
theorem legalWordsAreExactlyFortySix : Obligations.LegalWordsAreExactlyFortySix := by
  refine ⟨exists_decode_eq_command_iff_legal, legalInstrs.map encode, rfl, ?_, fun cw => ?_⟩
  · refine List.Nodup.map_on (fun i hi j hj hij => ?_) (by decide)
    have hdecode := decode_encode ((mem_legalInstrs_iff i).1 hi)
    rw [hij, decode_encode ((mem_legalInstrs_iff j).1 hj)] at hdecode
    exact (Verdict.command.inj hdecode).symm
  · simp only [List.mem_map, mem_legalInstrs_iff, decode_eq_command_iff]

/-- The four ways of R53 by the three fields of the word are together the complement of legality. -/
theorem reservedOrIllegal_iff_not_legal (cw : CmdWord) : ReservedOrIllegal cw ↔ ¬ Legal cw := by
  obtain ⟨hplain, hreserved⟩ := opcode_ranges (opOf cw)
  have hways : ReservedOrIllegal cw ↔ 0xC#4 ≤ opOf cw ∨ zeroOf cw ≠ 0 ∨ (opOf cw ≤ 0x9#4 ∧ fselOf cw ≠ 0) ∨
      ((opOf cw = 0xA#4 ∨ opOf cw = 0xB#4) ∧ ¬ (fselOf cw).toNat ≤ 17) := by
    rw [Nat.not_le]
    exact Iff.rfl
  rw [hways, legal_iff, hreserved]
  by_cases hp : opOf cw ≤ 0x9#4
  · simp [hp, hplain hp, imp_iff_not_or]
  · by_cases hf : opOf cw = 0xA#4 ∨ opOf cw = 0xB#4
    · simp [hp, hf, imp_iff_not_or]
    · simp [hp, hf]

/-- Settles O9: the complement of legality, and the step of a word the decoder calls illegal. -/
theorem reservedAndIllegalWordsRaise : Obligations.ReservedAndIllegalWordsRaise := by
  refine ⟨reservedOrIllegal_iff_not_legal, fun s c cs hs hc => ?_⟩
  rw [reservedOrIllegal_iff_not_legal, ← exists_decode_eq_command_iff_legal, ← exists_decode_eq_illegal_iff] at hc
  obtain ⟨why, hd⟩ := hc
  exact step_of_illegal hs hd

/-! ### The opcode table -/

/-- The row of a command without a selector: all 16 bits are fixed (R51). -/
def plainRow (i : Instr) : OpcodeRow := ⟨mnemonic i, encode i, 0xFFFF, false⟩

/-- The row of a field command: the five bits of the selector are free (R51). -/
def fieldCommandRow (name : String) (op : BitVec 4) : OpcodeRow := ⟨name, commandWord op 0, 0xFFE0, true⟩

/-- The opcode map of R51 holds these rows. -/
theorem opcodeTable_eq :
    opcodeTable = plainInstrs.map plainRow ++ [fieldCommandRow "GETF" 0xA, fieldCommandRow "SETF" 0xB] := by
  decide

/-- No two commands share a mnemonic, but for the selector. -/
theorem eq_of_mnemonic_eq {i j : Instr} (hi : i ∈ plainInstrs) (h : mnemonic j = mnemonic i) : j = i := by
  have hplain : ∀ i ∈ plainInstrs, ∀ j ∈ plainInstrs, mnemonic j = mnemonic i → j = i := by decide
  have hfield : ∀ i ∈ plainInstrs, mnemonic i ≠ "GETF" ∧ mnemonic i ≠ "SETF" := by decide
  cases j with
  | getf fsel => exact absurd h.symm (hfield i hi).1
  | setf fsel => exact absurd h.symm (hfield i hi).2
  | clr | ldblk | rdblk | bcdenc | bcddec | par32 | pcalc | synd | encode | decode => exact hplain i hi _ (by decide) h

/-- A row that fixes all 16 bits accepts the word of its command and no other. -/
theorem accepts_plainRow {i : Instr} (hi : i ∈ plainInstrs) (cw : CmdWord) :
    (plainRow i).Accepts cw ↔ ∃ j, decode cw = .command j ∧ mnemonic j = mnemonic i := by
  have hmask : cw &&& 0xFFFF = cw := BitVec.and_allOnes
  have hwf : i.wellFormed = true := (mem_legalInstrs_iff i).1 (by simp [legalInstrs, hi])
  constructor
  · rintro ⟨hbits, -⟩
    exact ⟨i, decode_eq_command_iff.2 ⟨hwf, hbits.symm.trans hmask⟩, rfl⟩
  · rintro ⟨j, hd, hj⟩
    obtain rfl := eq_of_mnemonic_eq hi hj
    exact ⟨hmask.trans (decode_eq_command_iff.1 hd).2.symm, nofun⟩

/-- The eleven bits that a field row fixes are `OP` and `ZERO` (R48). -/
theorem and_fieldMask_eq_iff (cw : CmdWord) (op : BitVec 4) :
    cw &&& 0xFFE0 = commandWord op 0 ↔ opOf cw = op ∧ zeroOf cw = 0 := by
  have hop : opOf (cw &&& 0xFFE0) = opOf cw := by
    rw [opOf, BitVec.extractLsb'_and]
    exact BitVec.and_allOnes
  have hzero : zeroOf (cw &&& 0xFFE0) = zeroOf cw := by
    rw [zeroOf, BitVec.extractLsb'_and]
    exact BitVec.and_allOnes
  have hfsel : fselOf (cw &&& 0xFFE0) = 0 := by
    rw [fselOf, BitVec.extractLsb'_and]
    exact BitVec.and_zero
  constructor
  · intro h
    rw [← hop, ← hzero, h, opOf_commandWord, zeroOf_commandWord]
    exact ⟨rfl, rfl⟩
  · rintro ⟨rfl, hz⟩
    rw [← commandWord_of_fields (hzero.trans hz), hop, hfsel]

/-- A row that leaves the selector free accepts the words of its field commands and no other. -/
theorem accepts_fieldCommandRow {mk : BitVec 5 → Instr} {op : BitVec 4} {name : String}
    (hwf : ∀ fsel, (mk fsel).wellFormed = fselInRange fsel) (henc : ∀ fsel, encode (mk fsel) = commandWord op fsel)
    (hname : ∀ j, mnemonic j = name ↔ ∃ fsel, j = mk fsel) (cw : CmdWord) :
    (fieldCommandRow name op).Accepts cw ↔ ∃ j, decode cw = .command j ∧ mnemonic j = name := by
  have hselector (fsel : BitVec 5) : (mk fsel).wellFormed = true ↔ fsel.toNat ≤ 17 := by
    rw [hwf, fselInRange_iff, Nat.lt_succ_iff]
  constructor
  · rintro ⟨hbits, hf⟩
    obtain ⟨rfl, hz⟩ := (and_fieldMask_eq_iff cw op).1 hbits
    have hd := decode_eq_command_iff.2 ⟨(hselector (fselOf cw)).2 (hf rfl), (henc _).trans (commandWord_of_fields hz)⟩
    exact ⟨_, hd, (hname _).2 ⟨_, rfl⟩⟩
  · rintro ⟨j, hd, hj⟩
    obtain ⟨fsel, rfl⟩ := (hname j).1 hj
    obtain ⟨hf, rfl⟩ := decode_eq_command_iff.1 hd
    rw [henc]
    refine ⟨(and_fieldMask_eq_iff _ op).2 ⟨opOf_commandWord op fsel, zeroOf_commandWord op fsel⟩, fun _ => ?_⟩
    rw [fselOf_commandWord]
    exact (hselector fsel).1 hf

/-- Every row accepts the words from which the decoder reads its mnemonic (R51). -/
theorem accepts_row_iff (cw : CmdWord) {row : OpcodeRow} (h : row ∈ opcodeTable) :
    row.Accepts cw ↔ ∃ i, decode cw = .command i ∧ mnemonic i = row.mnemonic := by
  simp only [opcodeTable_eq, List.mem_append, List.mem_map, List.mem_cons, List.not_mem_nil, or_false] at h
  obtain ⟨i, hi, rfl⟩ | rfl | rfl := h
  · exact accepts_plainRow hi cw
  · have hname (j : Instr) : mnemonic j = "GETF" ↔ ∃ fsel, j = .getf fsel := by cases j <;> simp [mnemonic]
    exact accepts_fieldCommandRow (fun _ => rfl) (fun _ => rfl) hname cw
  · have hname (j : Instr) : mnemonic j = "SETF" ↔ ∃ fsel, j = .setf fsel := by cases j <;> simp [mnemonic]
    exact accepts_fieldCommandRow (fun _ => rfl) (fun _ => rfl) hname cw

/-- Every mnemonic has its row. -/
theorem exists_row_of_mnemonic (i : Instr) : ∃ row ∈ opcodeTable, mnemonic i = row.mnemonic := by
  cases i <;> simp [opcodeTable, mnemonic]

/-- Settles O4: row by row, and a word without a row is one from which no mnemonic is read. -/
theorem opcodeTableAcceptsWhatTheDecoderReads : Obligations.OpcodeTableAcceptsWhatTheDecoderReads := by
  refine ⟨rfl, fun cw row => accepts_row_iff cw, fun cw => ?_⟩
  rw [exists_decode_eq_illegal_iff]
  constructor
  · rintro hnone ⟨i, hd⟩
    obtain ⟨row, hrow, hi⟩ := exists_row_of_mnemonic i
    exact hnone row hrow ((accepts_row_iff cw hrow).2 ⟨i, hd, hi⟩)
  · intro hnone row hrow hacc
    obtain ⟨i, hd, -⟩ := (accepts_row_iff cw hrow).1 hacc
    exact hnone ⟨i, hd⟩

end Sys2Proof.Machine
end

section
/-! PROOFS. What a command reads: `BLK`, `CW` and of `ARG` the bits it uses (R47, R49); the responses it gives (R50). -/

namespace Sys2Proof.Machine

/-! ### The step as a function -/

/-- One new `BLK`, one result and one status for a command, given `BLK` and `ARG`. -/
theorem exec_function_of_blk_arg (i : Instr) (b a : Word64) :
    ∃ v r st, ∀ s : State, s.blk = b → s.arg = a → exec i s = .next (respond r st (writeBlk v s)) := by
  obtain ⟨v, r, st, h₀, -⟩ := exec_congr i (s := { State.reset with blk := b, arg := a }) rfl rfl
  refine ⟨v, r, st, fun s hb ha => ?_⟩
  obtain ⟨v', r', st', h₀', h⟩ := exec_congr i (s := { State.reset with blk := b, arg := a }) hb.symm ha.symm
  have hsame := h₀.symm.trans h₀'
  simp only [respond, writeBlk, Host.Outcome.next.injEq, State.mk.injEq, List.append_cancel_left_eq, List.cons.injEq,
    Response.mk.injEq] at hsame
  obtain ⟨rfl, -, -, -, ⟨rfl, rfl⟩, -⟩ := hsame
  exact h

/-- The same of what stands on the ports, an illegal word included (R47). -/
theorem execPort_function_of_blk_cw_arg (b : Word64) (w : CmdWord) (a : Word64) :
    ∃ o : Word64 × Word64 × Status, ∀ s : State, s.blk = b → s.cw = w → s.arg = a →
      execPort s = .next (respond o.2.1 o.2.2 (writeBlk o.1 s)) := by
  cases hd : decode w with
  | command i =>
    obtain ⟨v, r, st, h⟩ := exec_function_of_blk_arg i b a
    refine ⟨(v, r, st), fun s hb hw ha => ?_⟩
    rw [← h s hb ha, execPort, hw, hd]
  | illegal why =>
    refine ⟨(b, 0, .illegal), fun s hb hw _ => ?_⟩
    rw [execPort, hw, hd, raiseIllegal_eq, ← hb, writeBlk_self]

/-- Settles O7: the function takes `BLK`, `CW` and `ARG` to the outputs of the ports that carry them. -/
theorem stepIsATotalFunctionOfBlkCwArg : Obligations.StepIsATotalFunctionOfBlkCwArg := by
  choose f hf using execPort_function_of_blk_cw_arg
  refine ⟨f, fun s c cs hs => ?_⟩
  rw [step, present_cons hs]
  exact hf s.blk c.cw c.arg { s with cw := c.cw, arg := c.arg, pending := cs } rfl rfl rfl

/-! ### The operand bits a command uses -/

/-- Operands that agree under a mask agree on every bit of it. -/
theorem getLsbD_eq_of_and_eq {a a' m : Word64} (h : a &&& m = a' &&& m) {k : Nat} (hk : m.getLsbD k = true) :
    a.getLsbD k = a'.getLsbD k := by
  have hbit := congrArg (BitVec.getLsbD · k) h
  simpa [hk] using hbit

/-- Operands that agree under a mask agree on every slice the mask covers. -/
theorem extractLsb'_eq_of_and_eq {a a' m : Word64} (h : a &&& m = a' &&& m) {start len : Nat}
    (hm : ∀ k < len, m.getLsbD (start + k) = true) : a.extractLsb' start len = a'.extractLsb' start len := by
  apply BitVec.eq_of_getLsbD_eq
  intro k hk
  simp only [BitVec.getLsbD_extractLsb', hk, getLsbD_eq_of_and_eq h (hm k hk)]

/-- `ENCODE` reads bits 46..0 of its operand (R49, R79). -/
theorem encodeFn_congr {a a' : Word64} (h : a &&& 0x7FFFFFFFFFFF = a' &&& 0x7FFFFFFFFFFF) :
    encodeFn a = encodeFn a' := by
  have hcal : calOfWord a = calOfWord a' := by
    simp only [calOfWord, Cal.mk.injEq]
    and_intros <;> exact extractLsb'_eq_of_and_eq h (by decide)
  rw [encodeFn, encodeFn, hcal]

/-- `SETF` reads the low bits of its operand, as many as its field has (R49, D11). -/
theorem setField_congr {a a' : Word64} {f : Field}
    (h : a &&& (BitVec.allOnes f.wid).setWidth 64 = a' &&& (BitVec.allOnes f.wid).setWidth 64) (b : Word64) :
    setField b f a = setField b f a' := by
  have hf := field_end_le_sixty f
  apply BitVec.eq_of_getLsbD_eq
  intro k _
  rw [getLsbD_setField, getLsbD_setField]
  split
  · have hwid : k - f.off < f.wid := by omega
    have hk : k - f.off < 64 := by omega
    exact getLsbD_eq_of_and_eq h (by simp [hwid, hk])
  · rfl

/-- Settles O25: command by command, what it computes from the bits it uses. -/
theorem ignoredOperandBitsDoNotMatter : Obligations.IgnoredOperandBitsDoNotMatter := by
  intro i s a h
  cases i with
  | clr | rdblk | pcalc | synd | decode => exact ⟨_, rfl, rfl⟩
  | ldblk =>
    have ha : a = s.arg := (BitVec.and_allOnes.symm.trans h).trans BitVec.and_allOnes
    subst ha
    exact ⟨_, rfl, rfl⟩
  | bcdenc | bcddec =>
    have hbyte : argByte { s with arg := a } = argByte s := extractLsb'_eq_of_and_eq h (by decide)
    refine ⟨_, rfl, ?_⟩
    simp only [exec, execBcdenc, execBcddec, hbyte]
    rfl
  | par32 =>
    have hword : argWord32 { s with arg := a } = argWord32 s := extractLsb'_eq_of_and_eq h (by decide)
    refine ⟨_, rfl, ?_⟩
    simp only [exec, execPar32, hword]
    rfl
  | encode =>
    refine ⟨_, rfl, ?_⟩
    simp only [exec, execEncode, encodeFn_congr h]
    rfl
  | getf fsel =>
    cases hf : fieldOf fsel with
    | some f => exact ⟨_, exec_getf_of_some hf s, exec_getf_of_some hf _⟩
    | none => exact ⟨_, exec_getf_of_none hf s, exec_getf_of_none hf _⟩
  | setf fsel =>
    cases hf : fieldOf fsel with
    | some f =>
      simp only [usedArgBits, hf] at h
      refine ⟨_, exec_setf_of_some hf s, ?_⟩
      rw [exec_setf_of_some hf, setField_congr h]
      rfl
    | none => exact ⟨_, exec_setf_of_none hf s, exec_setf_of_none hf _⟩

/-! ### The shape of a response -/

/-- Settles O48: a step adds one response at most, and with `ST = 1` its result is 0. -/
theorem stepKeepsResponsesWellFormed : Obligations.StepKeepsResponsesWellFormed := by
  intro s t hwf h
  cases hs : s.pending with
  | nil =>
    rw [step_nil hs] at h
    cases h
    exact hwf
  | cons c cs =>
    obtain ⟨v, r, st, hstep, hillegal⟩ := step_cons_cases hs
    rw [hstep] at h
    cases h
    intro resp hresp hst
    obtain hold | rfl := List.mem_append.1 hresp |>.imp_right List.mem_singleton.1
    · exact hwf resp hold hst
    · exact (hillegal hst).1

end Sys2Proof.Machine
end

section
/-! PROOFS. The field selectors (R54), the assembler lines and `SPLIT` (R60, R61), the DST tri-state (R56). -/

namespace Sys2Proof.Machine

/-- Settles O31: the table by evaluation, and both directions of the numbering. -/
theorem selectorsNumberTheFieldsInOrder : Obligations.SelectorsNumberTheFieldsInOrder := by
  refine ⟨by decide, fun f => ⟨fieldOf_number f, ?_⟩, fun fsel h => ?_, fun _ => fieldOf_eq_none⟩
  · exact Nat.lt_succ_iff.1 ((fselInRange_iff _).1 (number_inRange f))
  · obtain ⟨f, -, hf⟩ := exists_field_number_eq fsel h
    exact ⟨f, hf⟩

/-! ### Assembler lines -/

/-- Every command of a line has the word of a well-formed instruction. -/
theorem exists_instr_of_mem_assemble {line : AsmLine} {c : Command} (h : c ∈ assemble line) :
    ∃ i, encode i = c.cw ∧ i.wellFormed = true := by
  cases line with
  | split =>
    obtain ⟨f, -, rfl⟩ := List.mem_map.1 h
    exact ⟨.getf f.number, rfl, number_inRange f⟩
  | getf f | setf f v =>
    obtain rfl := List.mem_singleton.1 h
    dsimp only [plainLine]
    exact ⟨_, rfl, number_inRange f⟩
  | _ =>
    obtain rfl := List.mem_singleton.1 h
    dsimp only [plainLine]
    exact ⟨_, rfl, rfl⟩

/-- Every command of a line is a legal one (R52, R60). -/
theorem legal_of_mem_assemble (line : AsmLine) (c : Command) (h : c ∈ assemble line) : Legal c.cw := by
  obtain ⟨i, hcw, hwf⟩ := exists_instr_of_mem_assemble h
  rw [← hcw, ← exists_decode_eq_command_iff_legal]
  exact ⟨i, decode_encode hwf⟩

/-- The word of `SETF f` is `0xB000` plus the field number (R48, R51). -/
theorem encode_setf_number (f : Field) : encode (.setf f.number) = 0xB000#16 + f.number.setWidth 16 := by
  cases f <;> decide

theorem plainLine_getf_number (f : Field) : plainLine (.getf f.number) = ⟨0xA000#16 + f.number.setWidth 16, 0⟩ := by
  rw [plainLine, encode_getf_number]

theorem dstBits_eq (d : Dst) : dstBits d = if d = .off then 0b00#2 else if d = .on then 0b01#2 else 0b10#2 := by
  cases d <;> rfl

/-- Settles O52: legality by the instruction of each command, then the rows of R60. -/
theorem assembledLinesAreLegalCommands : Obligations.AssembledLinesAreLegalCommands := by
  refine ⟨legal_of_mem_assemble, rfl, fun v => rfl, rfl, fun v => ?bcdenc, fun v => ?bcddec, fun v => ?par32, rfl, rfl,
    fun min hour mday mon year wday dst dsta => ?members, fun v => rfl, rfl, fun f => ?getf, fun f v => ?setf, ?split⟩
  case bcdenc | bcddec | par32 => rw [assemble, zext64_eq]; rfl
  case members =>
    simp only [← dstBits_eq]
    exact ⟨_, rfl, calWord_slices ⟨min, hour, mday, mon, year, wday, dstBits dst, dstBits dsta⟩⟩
  case getf => rw [assemble, plainLine_getf_number]
  case setf => rw [assemble, encode_setf_number]
  case split => simp only [assemble, split, plainLine_getf_number]

/-! ### SPLIT -/

/-- A step with `GETF f` presented answers the field (R96). -/
theorem step_getf_number {s : State} {f : Field} {cs : List Command}
    (hs : s.pending = plainLine (.getf f.number) :: cs) :
    step s = .next (respond (BitVec.ofNat 64 (s.blk.toNat / 2 ^ f.off % 2 ^ f.wid)) .ok
      { s with cw := encode (.getf f.number), arg := 0, pending := cs }) := by
  rw [step_of_command hs (decode_encode (number_inRange f)), exec_getf_of_some (fieldOf_number f), zext64_getField,
    answer_eq]
  rfl

/-- A list of `GETF` commands answers the fields in its order and leaves `BLK` (R98). -/
theorem run_getf_list (fs : List Field) {s : State} {cs : List Command}
    (hs : s.pending = (fs.map fun f => plainLine (.getf f.number)) ++ cs) :
    ∃ t : State, Host.Core.run Sys2Proof.core fs.length s = .next t ∧ t.blk = s.blk ∧ t.pending = cs ∧
      t.responses = s.responses ++ fs.map fun f =>
        ⟨BitVec.ofNat 64 (s.blk.toNat / 2 ^ f.off % 2 ^ f.wid), .ok⟩ := by
  induction fs generalizing s with
  | nil => exact ⟨s, rfl, rfl, hs, (List.append_nil _).symm⟩
  | cons f fs ih =>
    have hstep := step_getf_number hs
    obtain ⟨t, hrun, hblk, hpending, hresponses⟩ := ih (s := respond _ .ok
      { s with
        cw := encode (.getf f.number), arg := 0, pending := (fs.map fun f => plainLine (.getf f.number)) ++ cs }) rfl
    exact ⟨t, (run_succ _ hstep).trans hrun, hblk, hpending, hresponses.trans (List.append_assoc _ _ _)⟩

/-- Settles O30: the words are read off, and the run is that of the list of all fields. -/
theorem splitReturnsTheEighteenFields : Obligations.SplitReturnsTheEighteenFields :=
  ⟨by decide, fun _ _ hs => run_getf_list Field.all hs⟩

/-- Settles O45: each of the four patterns is evaluated. -/
theorem dstTriState : Obligations.DstTriState := by
  unfold Obligations.DstTriState
  decide

end Sys2Proof.Machine
end

section
/-! PROOFS. The Block commands `CLR`, `LDBLK` and `RDBLK` (R63 to R65). -/

namespace Sys2Proof.Machine

/-- `CLR` stores zero, whatever `BLK` was (R63). -/
theorem exec_clr (s : State) : exec .clr s = store 0 s := rfl

/-- `LDBLK` stores the whole operand (R64). -/
theorem exec_ldblk (s : State) : exec .ldblk s = store s.arg s := rfl

/-- `RDBLK` answers the whole of `BLK` (R65). -/
theorem exec_rdblk (s : State) : exec .rdblk s = answer s.blk s := rfl

/-- `RDBLK` after a command that stored `v` answers `v`, all 64 bits of it (R64, R65). -/
theorem exec_rdblk_of_stored (v : Word64) (s : State) :
    exec .rdblk (respond v .ok (writeBlk v s)) = answer v (respond v .ok (writeBlk v s)) := by
  rw [exec_rdblk, respond_blk, writeBlk_blk]

/-- Settles O13: `CLR` stores zero, which is the `BLK` of reset. -/
theorem clrEmptiesTheBlock : Obligations.ClrEmptiesTheBlock :=
  ⟨by decide, fun s => (exec_clr s).trans (store_eq 0 s), reset_blk⟩

/-- Settles O14: `LDBLK` stores its operand, and `RDBLK` answers what was stored. -/
theorem ldblkStoresTheOperand : Obligations.LdblkStoresTheOperand :=
  ⟨by decide, fun s => ⟨respond s.arg .ok (writeBlk s.arg s), (exec_ldblk s).trans (store_eq s.arg s), rfl,
    (exec_rdblk_of_stored s.arg s).trans (answer_eq s.arg _)⟩⟩

/-- Settles O15: `RDBLK` answers `BLK` and stores nothing. -/
theorem rdblkReturnsTheBlock : Obligations.RdblkReturnsTheBlock :=
  ⟨by decide, fun s => (exec_rdblk s).trans (answer_eq s.blk s)⟩

end Sys2Proof.Machine
end

section
/-! PROOFS. The BCD functions and the commands `BCDENC` and `BCDDEC` (R66 to R70). -/

namespace Sys2Proof.Machine

/-! ### The commands -/

theorem argByte_toNat (s : State) : (argByte s).toNat = s.arg.toNat % 256 := by
  simp [argByte, BitVec.extractLsb'_toNat]

/-- `BCDENC` answers the code of its operand byte (R67). -/
theorem exec_bcdenc (s : State) : exec .bcdenc s = answer (zext64 (bcdEnc (argByte s))) s := rfl

/-- `BCDDEC` answers the number its operand byte codes (R69). -/
theorem exec_bcddec (s : State) : exec .bcddec s = answer (zext64 (bcdDec (argByte s))) s := rfl

/-- Settles O16: the answer is the code of R66 as a number, taken of the low byte of `ARG`. -/
theorem bcdencReturnsTwoDigits : Obligations.BcdencReturnsTwoDigits := by
  refine ⟨by decide, fun s => ?_⟩
  rw [exec_bcdenc, zext64_eq, bcdEnc_toNat, argByte_toNat]
  exact answer_eq _ s

/-- Settles O17: the answer is the value of R68 as a number; the low nibble of `ARG[7:0]` is that of `ARG`. -/
theorem bcddecReturnsTenTimesTensPlusUnits : Obligations.BcddecReturnsTenTimesTensPlusUnits := by
  refine ⟨by decide, fun s => ?_⟩
  have hlow : s.arg.toNat % 256 % 16 = s.arg.toNat % 16 := Nat.mod_mod_of_dvd _ (by decide)
  rw [exec_bcddec, zext64_eq, bcdDec_toNat, argByte_toNat, hlow]
  exact answer_eq _ s

/-! ### The round trips -/

/-- The high nibble of a code is the tens digit (R66). -/
theorem bcdEnc_high_nibble (v : Byte) : (bcdEnc v).toNat / 16 = v.toNat % 100 / 10 := by
  rw [bcdEnc_toNat]
  omega

/-- The low nibble of a code is the units digit (R66). -/
theorem bcdEnc_low_nibble (v : Byte) : (bcdEnc v).toNat % 16 = v.toNat % 100 % 10 := by
  rw [bcdEnc_toNat]
  omega

/-- Decoding a code gives back the value folded below 100 (R70). -/
theorem bcdDec_bcdEnc_toNat (v : Byte) : (bcdDec (bcdEnc v)).toNat = v.toNat % 100 := by
  rw [bcdDec_toNat, bcdEnc_high_nibble, bcdEnc_low_nibble, Nat.div_add_mod]

/-- Encoding gives back every byte whose nibbles are decimal digits (R70). -/
theorem bcdEnc_bcdDec {b : Byte} (hhigh : b.toNat / 16 ≤ 9) (hlow : b.toNat % 16 ≤ 9) : bcdEnc (bcdDec b) = b := by
  apply BitVec.eq_of_toNat_eq
  have htens : (10 * (b.toNat / 16) + b.toNat % 16) % 100 / 10 = b.toNat / 16 := by omega
  have hunits : (10 * (b.toNat / 16) + b.toNat % 16) % 100 % 10 = b.toNat % 16 := by omega
  rw [bcdEnc_toNat, bcdDec_toNat, htens, hunits, Nat.div_add_mod]

/-- Settles O37: the two laws, and the byte `0x0A`, whose low nibble is no digit, by evaluation. -/
theorem bcdRoundTripLaws : Obligations.BcdRoundTripLaws :=
  ⟨bcdDec_bcdEnc_toNat, fun _ => bcdEnc_bcdDec, by decide⟩

end Sys2Proof.Machine
end

section
/-! PROOFS. The parity function and the commands `PAR32`, `PCALC` and `SYND` (R72 to R78): what each computes as a count
of ones, and that the parity function and the syndrome are linear. -/

namespace Sys2Proof.Machine

/-! ### One bit and three bits as numbers -/

theorem toNat_bit (x : BitVec 1) : x.toNat = (x.getLsbD 0).toNat := by
  revert x; decide

/-- The xor of two bits is their sum modulo 2. -/
theorem toNat_xor_bit (x y : BitVec 1) : (x ^^^ y).toNat = (x.toNat + y.toNat) % 2 := by
  revert x y; decide

/-- Three bits as a number, the last one in bit 0 (R57). -/
theorem toNat_append_bits (x y z : BitVec 1) : (x ++ y ++ z).toNat = z.toNat + 2 * y.toNat + 4 * x.toNat := by
  revert x y z; decide

/-- The three bits are read back by their places (R57). -/
theorem extractLsb'_append_bits (x y z : BitVec 1) : (x ++ y ++ z).extractLsb' 0 1 = z ∧
    (x ++ y ++ z).extractLsb' 1 1 = y ∧ (x ++ y ++ z).extractLsb' 2 1 = x := by
  revert x y z; decide

/-- The xor of three bits goes bit by bit. -/
theorem append_bits_xor (x y z x' y' z' : BitVec 1) :
    (x ^^^ x') ++ (y ^^^ y') ++ (z ^^^ z') = (x ++ y ++ z) ^^^ (x' ++ y' ++ z') := by
  rw [BitVec.xor_append, BitVec.xor_append]

/-! ### The parity function -/

theorem par32_toNat (x : BitVec 32) : (par32 x).toNat = popcountLow x 32 % 2 := by
  simpa using par32_zext x le_rfl

/-- The parity of an xor is the xor of the parities (R72). -/
theorem par32_xor (x y : BitVec 32) : par32 (x ^^^ y) = par32 x ^^^ par32 y := by
  apply BitVec.eq_of_toNat_eq
  rw [toNat_xor_bit, par32_toNat, par32_toNat, par32_toNat, popcountLow_xor, Nat.add_mod]

/-- Settles O38: both counts are the recursion of the definition read as a list count, and `par32_xor` is linearity. -/
theorem parityCountsAndIsLinear : Obligations.ParityCountsAndIsLinear := by
  refine ⟨fun x => ?_, fun n y h => ?_, par32_xor⟩
  · rw [par32_toNat, popcountLow_eq_countP]
  · rw [par32_zext y h, popcountLow_eq_countP]

/-! ### The recomputed and the stored bits -/

theorem p1c_toNat (b : Word64) : (p1c b).toNat = onesIn b 21 7 % 2 := fieldParity_toNat b .min

theorem p2c_toNat (b : Word64) : (p2c b).toNat = onesIn b 29 6 % 2 := fieldParity_toNat b .hour

/-- The xor of the four date parities is their sum modulo 2 (R74). -/
theorem p3c_toNat (b : Word64) : (p3c b).toNat = dateParity b := by
  simp only [p3c, toNat_xor_bit, fieldParity_toNat, dateParity, Field.off, Field.wid]
  omega

/-- The lowest bit of a field is stream position `off(f)`; a stored parity bit is a field of that one position (R30). -/
theorem toNat_setWidth_one_getField (b : Word64) (f : Field) :
    ((getField b f).setWidth 1).toNat = (b.getLsbD f.off).toNat := by
  have hwid : 0 < f.wid := by cases f <;> decide
  have hbit : ((getField b f).setWidth 1).getLsbD 0 = b.getLsbD f.off := by
    rw [BitVec.getLsbD_setWidth, getLsbD_getField]
    simp [hwid]
  rw [toNat_bit, hbit]

theorem pcalc_toNat (b : Word64) :
    (pcalc b).toNat = onesIn b 21 7 % 2 + 2 * (onesIn b 29 6 % 2) + 4 * dateParity b := by
  rw [pcalc, toNat_append_bits, p1c_toNat, p2c_toNat, p3c_toNat]

theorem synd_toNat (b : Word64) : (synd b).toNat =
    (onesIn b 21 7 + (b.getLsbD 28).toNat) % 2 + 2 * ((onesIn b 29 6 + (b.getLsbD 35).toNat) % 2) +
      4 * ((dateParity b + (b.getLsbD 58).toNat) % 2) := by
  rw [synd, toNat_append_bits, toNat_xor_bit, toNat_xor_bit, toNat_xor_bit, p1c_toNat, p2c_toNat, p3c_toNat,
    toNat_setWidth_one_getField, toNat_setWidth_one_getField, toNat_setWidth_one_getField,
    Nat.mod_add_mod, Nat.mod_add_mod]
  rfl

/-! ### The commands -/

/-- `PAR32` answers the parity of its operand word (R73). -/
theorem exec_par32 (s : State) : exec .par32 s = answer (zext64 (par32 (argWord32 s))) s := rfl

/-- `PCALC` answers the recomputed bits (R75). -/
theorem exec_pcalc (s : State) : exec .pcalc s = answer (zext64 (pcalc s.blk)) s := rfl

/-- `SYND` answers the syndrome (R77). -/
theorem exec_synd (s : State) : exec .synd s = answer (zext64 (synd s.blk)) s := rfl

/-- Settles O18: the ones of `ARG[31:0]` are those of `ARG` at positions 0 to 31. -/
theorem par32ReturnsParityOfLowWord : Obligations.Par32ReturnsParityOfLowWord := by
  refine ⟨by decide, fun s => ?_⟩
  rw [exec_par32, zext64_eq, par32_toNat, argWord32, ← onesIn_eq]
  exact answer_eq _ s

/-- Settles O19: the answer is `pcalc_toNat` of the Block, and an answer leaves the state. -/
theorem pcalcReturnsTheThreeGroupParities : Obligations.PcalcReturnsTheThreeGroupParities := by
  refine ⟨by decide, fun s => ?_⟩
  rw [exec_pcalc, zext64_eq, pcalc_toNat]
  exact answer_eq _ s

/-- Settles O20: the answer is `synd_toNat` of the Block, and an answer leaves the state. -/
theorem syndReturnsTheThreeGroupSyndromes : Obligations.SyndReturnsTheThreeGroupSyndromes := by
  refine ⟨by decide, fun s => ?_⟩
  rw [exec_synd, zext64_eq, synd_toNat]
  exact answer_eq _ s

/-! ### Storing the recomputed bits -/

/-- The recomputed bits read no parity field, so storing them leaves them as they are (R74, R78). -/
theorem pcalc_writeParity (b : Word64) : pcalc (writeParity b) = pcalc b := by
  have h : ∀ g ∈ [Field.min, .hour, .day, .dow, .mon, .year], fieldParity (writeParity b) g = fieldParity b g := by
    intro g hg
    exact fieldParity_writeParity b (by revert g; decide)
  simp [pcalc, p1c, p2c, p3c, h]

/-- Settles O39: the Block stored is `writeParity b`, step 6 of the encoding. -/
theorem storingRecomputedParityClearsTheSyndrome : Obligations.StoringRecomputedParityClearsTheSyndrome := by
  intro b
  obtain ⟨h1, h2, h3⟩ : (pcalc b).extractLsb' 0 1 = p1c b ∧ (pcalc b).extractLsb' 1 1 = p2c b ∧
      (pcalc b).extractLsb' 2 1 = p3c b := extractLsb'_append_bits _ _ _
  rw [h1, h2, h3]
  exact ⟨pcalc_writeParity b, synd_writeParity b⟩

/-! ### Error patterns -/

theorem getField_xor (a b : Word64) (f : Field) : getField (a ^^^ b) f = getField a f ^^^ getField b f :=
  BitVec.extractLsb'_xor

theorem fieldParity_xor (a b : Word64) (f : Field) :
    fieldParity (a ^^^ b) f = fieldParity a f ^^^ fieldParity b f := by
  rw [fieldParity, getField_xor, BitVec.setWidth_xor, par32_xor, fieldParity, fieldParity]

theorem p3c_xor (a b : Word64) : p3c (a ^^^ b) = p3c a ^^^ p3c b := by
  simp only [p3c, fieldParity_xor]
  ac_rfl

/-- The syndrome is linear: each of its bits is an xor of field parities and of a stored bit (R76). -/
theorem synd_xor (a b : Word64) : synd (a ^^^ b) = synd a ^^^ synd b := by
  have h1 : p1c (a ^^^ b) = p1c a ^^^ p1c b := fieldParity_xor a b .min
  have h2 : p2c (a ^^^ b) = p2c a ^^^ p2c b := fieldParity_xor a b .hour
  simp only [synd, h1, h2, p3c_xor, getField_xor, BitVec.setWidth_xor]
  rw [← append_bits_xor]
  ac_rfl

/-- The date group with its stored bit is the range 36 to 58: its four fields lie next to each other (R27, R74). -/
theorem dateParity_add_stored (b : Word64) : (dateParity b + (b.getLsbD 58).toNat) % 2 = onesIn b 36 23 % 2 := by
  have hsplit : onesIn b 36 23 =
      onesIn b 36 6 + onesIn b 42 3 + onesIn b 45 5 + onesIn b 50 8 + (b.getLsbD 58).toNat := by
    rw [onesIn_add b 36 22 1, onesIn_add b 36 14 8, onesIn_add b 36 9 5, onesIn_add b 36 6 3, onesIn_single]
  rw [hsplit, dateParity]
  omega

/-- The syndrome of a Block is the parity of all its positions in each group, the parity bit among them (R78). -/
theorem synd_eq_group_parities (b : Word64) :
    synd b = BitVec.ofNat 3 (onesIn b 21 8 % 2 + 2 * (onesIn b 29 7 % 2) + 4 * (onesIn b 36 23 % 2)) := by
  have hmin : onesIn b 21 8 = onesIn b 21 7 + (b.getLsbD 28).toNat := by
    rw [onesIn_add b 21 7 1, onesIn_single]
  have hhour : onesIn b 29 7 = onesIn b 29 6 + (b.getLsbD 35).toNat := by
    rw [onesIn_add b 29 6 1, onesIn_single]
  rw [hmin, hhour, ← dateParity_add_stored, ← synd_toNat, BitVec.ofNat_toNat, BitVec.setWidth_eq]

/-- Settles O40: the syndrome is linear, and that of the pattern is its flips in each group modulo 2. -/
theorem errorPatternsMoveTheSyndromeByGroupParity : Obligations.ErrorPatternsMoveTheSyndromeByGroupParity := by
  intro b e
  rw [synd_xor, synd_eq_group_parities e]

end Sys2Proof.Machine
end

section
/-! PROOFS. The command `ENCODE` (R79 to R86): what it answers, and the fields of its Block as numbers of the operand's
members. -/

namespace Sys2Proof.Machine

/-! ### The marker fields and the weekday -/

theorem getField_encodeFn_a1 (c : Word64) :
    getField (encodeFn c) .a1 = a1Of (calOfWord c).dst (calOfWord c).dsta := by
  rw [getField_encodeFn_of_markers c (by decide) (by decide)]
  simp [writeMarkers, Field.wid]

theorem getField_encodeFn_a1_toNat (c : Word64) : (getField (encodeFn c) .a1).toNat =
    if dst3 (c.extractLsb' 43 2) = dst3 (c.extractLsb' 45 2) then 0 else 1 := by
  have h : ∀ d d' : BitVec 2, (a1Of d d').toNat = if dst3 d = dst3 d' then 0 else 1 := by decide
  rw [getField_encodeFn_a1]
  exact h _ _

/-- Only the pattern `0b01` is on (R56, R82). -/
theorem getField_encodeFn_z1_toNat (c : Word64) :
    (getField (encodeFn c) .z1).toNat = if c.extractLsb' 43 2 = 0b01#2 then 1 else 0 := by
  have h : ∀ d : BitVec 2, (z1Of d).toNat = if d = 0b01#2 then 1 else 0 := by decide
  rw [getField_encodeFn_z1]
  exact h _

theorem getField_encodeFn_z2_toNat (c : Word64) :
    (getField (encodeFn c) .z2).toNat = 1 - (getField (encodeFn c) .z1).toNat := by
  have h : ∀ d : BitVec 2, (z2Of d).toNat = 1 - (z1Of d).toNat := by decide
  rw [getField_encodeFn_z1, getField_encodeFn_z2]
  exact h _

/-- Sunday is written as 7, every other weekday as itself (R80). -/
theorem getField_encodeFn_dow_toNat (c : Word64) : (getField (encodeFn c) .dow).toNat =
    if (c.extractLsb' 40 3).toNat = 0 then 7 else (c.extractLsb' 40 3).toNat := by
  have h : ∀ w : BitVec 3, (dowOf w).toNat = if w.toNat = 0 then 7 else w.toNat := by decide
  rw [getField_encodeFn_dow]
  exact h _

/-! ### The parity fields -/

/-- A field of one position is the bit there (R30). -/
theorem getField_toNat_of_wid_one (b : Word64) {f : Field} (h : f.wid = 1) :
    (getField b f).toNat = (b.getLsbD f.off).toNat := by
  rw [← toNat_setWidth_one_getField, BitVec.toNat_setWidth, Nat.mod_eq_of_lt]
  simpa [h] using (getField b f).isLt

/-- A zero syndrome says that each stored parity bit is the recomputed one (R76). -/
theorem stored_parity_of_synd_eq_zero {b : Word64} (h : synd b = 0) :
    (getField b .p1).toNat = onesIn b 21 7 % 2 ∧ (getField b .p2).toNat = onesIn b 29 6 % 2 ∧
      (getField b .p3).toNat = dateParity b := by
  have hsynd := synd_toNat b
  have hdate : dateParity b < 2 := Nat.mod_lt _ (by decide)
  have hp1 := (b.getLsbD 28).toNat_lt
  have hp2 := (b.getLsbD 35).toNat_lt
  have hp3 := (b.getLsbD 58).toNat_lt
  rw [h, BitVec.ofNat_eq_ofNat, BitVec.toNat_zero] at hsynd
  rw [getField_toNat_of_wid_one b rfl, getField_toNat_of_wid_one b rfl, getField_toNat_of_wid_one b rfl]
  simp only [Field.off]
  omega

/-! ### The command -/

/-- `ENCODE` stores the encoding of its operand, whatever `BLK` was (R86). -/
theorem exec_encode (s : State) : exec .encode s = store (encodeFn s.arg) s := rfl

/-- Settles O42: `produced_encodeFn` holds of every operand. -/
theorem everyEncodedBlockIsProduced : Obligations.EveryEncodedBlockIsProduced := produced_encodeFn

/-- Settles O21: the unwritten fields, the markers and the BCD fields each by its own lemma; the parity fields because
the syndrome is zero. -/
theorem encodeWritesEveryField : Obligations.EncodeWritesEveryField := by
  refine ⟨by decide, fun s => ⟨encodeFn s.arg, (exec_encode s).trans (store_eq _ s), ?_⟩⟩
  intro bcd mem fld
  have hzero : ∀ g ∈ [Field.m, .civ, .r, .a2, .mm], fld g = 0 := fun g hg => by
    simp only [fld, getField_encodeFn_unwritten s.arg hg]
    exact BitVec.toNat_zero
  obtain ⟨hp1, hp2, hp3⟩ := stored_parity_of_synd_eq_zero (produced_encodeFn s.arg).parity_consistent
  refine ⟨hzero _ (by decide), hzero _ (by decide), hzero _ (by decide), hzero _ (by decide), ?s, hzero _ (by decide),
    reservedBits_encodeFn s.arg, ?a1, ?z1, ?z2, ?min, ?hour, ?day, ?dow, ?mon, ?year, hp1, hp2, hp3⟩
  case s => simp only [fld, getField_encodeFn_s]; rfl
  case a1 => exact getField_encodeFn_a1_toNat _
  case z1 => exact getField_encodeFn_z1_toNat _
  case z2 => exact getField_encodeFn_z2_toNat _
  case min => simp only [fld, bcd, mem, getField_encodeFn_min_toNat, bcdEnc_toNat]; rfl
  case hour => simp only [fld, bcd, mem, getField_encodeFn_hour_toNat, bcdEnc_toNat]; rfl
  case day => simp only [fld, bcd, mem, getField_encodeFn_day_toNat, bcdEnc_toNat]; rfl
  case dow => exact getField_encodeFn_dow_toNat _
  case mon => simp only [fld, bcd, mem, getField_encodeFn_mon_toNat, monthByte_toNat]; rfl
  case year => simp only [fld, bcd, mem, getField_encodeFn_year_toNat, bcdEnc_toNat]

end Sys2Proof.Machine
end

section
/-! PROOFS. The command `DECODE` (R87 to R93): what it answers member by member, and which fields it reads. -/

namespace Sys2Proof.Machine

/-! ### Slices that lie next to each other -/

/-- Words that agree on two adjacent slices agree on the slice made of both. -/
theorem extractLsb'_add_congr {a b : Word64} {start m n : Nat} (hlow : a.extractLsb' start m = b.extractLsb' start m)
    (hhigh : a.extractLsb' (start + m) n = b.extractLsb' (start + m) n) :
    a.extractLsb' start (n + m) = b.extractLsb' start (n + m) := by
  rw [← BitVec.extractLsb'_append_extractLsb'_eq_extractLsb' rfl, hlow, hhigh,
    BitVec.extractLsb'_append_extractLsb'_eq_extractLsb' rfl]

/-! ### The members -/

/-- The month 0 wraps to `0xFF`, every other month is one less (R87, D17). -/
theorem monthOf_toNat (b : Word64) : (monthOf b).toNat =
    if (getField b .mon).toNat = 0 then 255
    else 10 * ((getField b .mon).toNat / 16) + (getField b .mon).toNat % 16 - 1 := by
  have hmon : (getField b .mon).toNat < 32 := (getField b .mon).isLt
  rw [monthOf, BitVec.toNat_add, decodeField_toNat b .mon (by decide)]
  simp only [BitVec.ofNat_eq_ofNat, BitVec.toNat_ofNat]
  split <;> omega

theorem wdayOf_toNat (b : Word64) : (wdayOf b).toNat =
    if (getField b .dow).toNat = 7 then 0 else (getField b .dow).toNat := by
  have h : ∀ w : BitVec 3, (if w.setWidth 3 = 7 then (0 : BitVec 3) else w.setWidth 3).toNat =
      if w.toNat = 7 then 0 else w.toNat := by decide
  exact h (getField b .dow)

theorem dstOf_toNat (b : Word64) : (dstOf b).toNat = if (getField b .z1).toNat = 1 then 1 else 0 := by
  have h : ∀ z : BitVec 1, (if z.setWidth 1 = 1#1 then 0b01#2 else 0b00#2).toNat = if z.toNat = 1 then 1 else 0 := by
    decide
  exact h (getField b .z1)

/-- The result slice by slice: `dsta` and everything above it is 0 (R90, R91). -/
theorem decodeFn_slices (b : Word64) :
    (decodeFn b).extractLsb' 0 8 = decodeField b .min ∧ (decodeFn b).extractLsb' 8 8 = decodeField b .hour ∧
    (decodeFn b).extractLsb' 16 8 = decodeField b .day ∧ (decodeFn b).extractLsb' 24 8 = monthOf b ∧
    (decodeFn b).extractLsb' 32 8 = decodeField b .year ∧ (decodeFn b).extractLsb' 40 3 = wdayOf b ∧
    (decodeFn b).extractLsb' 43 2 = dstOf b ∧ (decodeFn b).extractLsb' 45 19 = 0 := by
  obtain ⟨hmin, hhour, hmday, hmon, hyear, hwday, hdst, hdsta, hrest⟩ := calWord_slices _
  refine ⟨hmin, hhour, hmday, hmon, hyear, hwday, hdst, ?_⟩
  exact extractLsb'_add_congr (b := 0#64) (start := 45) (m := 2) (n := 17) hdsta hrest

/-! ### The command -/

/-- `DECODE` answers the calendar word of `BLK` and leaves it (R92). -/
theorem exec_decode (s : State) : exec .decode s = answer (decodeFn s.blk) s := rfl

/-- Settles O22: the slices of the calendar word are its members, and the rest of the word is zero. -/
theorem decodeReturnsEveryMember : Obligations.DecodeReturnsEveryMember := by
  refine ⟨by decide, fun s => ⟨decodeFn s.blk, (exec_decode s).trans (answer_eq _ s), ?_⟩⟩
  intro num mem
  obtain ⟨hmin, hhour, hmday, hmon, hyear, hwday, hdst, hrest⟩ := decodeFn_slices s.blk
  simp only [mem, num, hmin, hhour, hmday, hmon, hyear, hwday, hdst, hrest]
  exact ⟨decodeField_toNat _ .min (by decide), decodeField_toNat _ .hour (by decide),
    decodeField_toNat _ .day (by decide), monthOf_toNat _, decodeField_toNat _ .year (by decide), wdayOf_toNat _,
    dstOf_toNat _, BitVec.toNat_zero⟩

/-! ### What is read -/

/-- The fields `DECODE` reads (R91). -/
def decodedFields : List Field := [.min, .hour, .day, .dow, .mon, .year, .z1]

/-- Blocks that agree on those fields decode alike. -/
theorem decodeFn_eq_of_decodedFields {a b : Word64} (h : ∀ f ∈ decodedFields, getField a f = getField b f) :
    decodeFn a = decodeFn b := by
  simp only [decodeFn, decodeField, monthOf, wdayOf, dstOf]
  rw [h .min (by decide), h .hour (by decide), h .day (by decide), h .mon (by decide), h .year (by decide),
    h .dow (by decide), h .z1 (by decide)]

/-- The positions of those fields (R27, R93). -/
theorem decodedFields_positions : ∀ f ∈ decodedFields, ∀ j < f.wid, (36 ≤ f.off + j ∧ f.off + j ≤ 57) ∨
    (29 ≤ f.off + j ∧ f.off + j ≤ 34) ∨ (21 ≤ f.off + j ∧ f.off + j ≤ 27) ∨ f.off + j = 17 := by decide

/-- Settles O28: the decoding is made of seven fields, which lie in the positions named. -/
theorem decodeReadsOnlyItsFields : Obligations.DecodeReadsOnlyItsFields := fun _ _ h =>
  decodeFn_eq_of_decodedFields fun f hf => getField_congr fun j hj => h _ (decodedFields_positions f hf j hj)

end Sys2Proof.Machine
end

section
/-! PROOFS. `ENCODE` followed by `DECODE` (R94): what each member of the operand comes back as, and the whole operand in
calendar range. -/

namespace Sys2Proof.Machine

/-! ### The members that come back -/

/-- A field that holds the low bits of a two-digit code is read back as the value, when the code fits (R70). -/
theorem decodeField_eq_of_code_fits {b : Word64} {f : Field} {v : Byte} {n : Nat} (hwid : f.wid ≤ 8)
    (hfield : (getField b f).toNat = (bcdEnc v).toNat % 2 ^ n) (hdigits : v.toNat < 100)
    (hfits : (bcdEnc v).toNat < 2 ^ n) : decodeField b f = v := by
  apply BitVec.eq_of_toNat_eq
  rw [decodeField_toNat b f hwid, hfield, Nat.mod_eq_of_lt hfits, ← bcdDec_toNat, bcdDec_bcdEnc_toNat,
    Nat.mod_eq_of_lt hdigits]

theorem decodeField_encodeFn_min {c : Word64} (h : (c.extractLsb' 0 8).toNat ≤ 79) :
    decodeField (encodeFn c) .min = c.extractLsb' 0 8 :=
  decodeField_eq_of_code_fits (by decide) (getField_encodeFn_min_toNat c) (by omega) (by rw [bcdEnc_toNat]; omega)

theorem decodeField_encodeFn_hour {c : Word64} (h : (c.extractLsb' 8 8).toNat ≤ 39) :
    decodeField (encodeFn c) .hour = c.extractLsb' 8 8 :=
  decodeField_eq_of_code_fits (by decide) (getField_encodeFn_hour_toNat c) (by omega) (by rw [bcdEnc_toNat]; omega)

theorem decodeField_encodeFn_day {c : Word64} (h : (c.extractLsb' 16 8).toNat ≤ 39) :
    decodeField (encodeFn c) .day = c.extractLsb' 16 8 :=
  decodeField_eq_of_code_fits (by decide) (getField_encodeFn_day_toNat c) (by omega) (by rw [bcdEnc_toNat]; omega)

/-- The telegram month is at least 1, so nothing wraps on the way back. -/
theorem monthOf_encodeFn {c : Word64} (h : (c.extractLsb' 24 8).toNat ≤ 18) :
    monthOf (encodeFn c) = c.extractLsb' 24 8 := by
  apply BitVec.eq_of_toNat_eq
  rw [monthOf_toNat, getField_encodeFn_mon_toNat, monthByte_toNat]
  split <;> omega

/-- The year field holds both digits of every year modulo 100. -/
theorem decodeField_encodeFn_year_toNat (c : Word64) :
    (decodeField (encodeFn c) .year).toNat = (c.extractLsb' 32 8).toNat % 100 := by
  rw [decodeField_toNat _ _ (by decide), getField_encodeFn_year_toNat, ← bcdDec_toNat, bcdDec_bcdEnc_toNat]

/-- Sunday goes out as 7 and comes back as 0, whether it was given as 0 or as 7 (R80, R88). -/
theorem wdayOf_encodeFn_toNat (c : Word64) :
    (wdayOf (encodeFn c)).toNat = (c.extractLsb' 40 3).toNat % 7 := by
  rw [wdayOf_toNat, getField_encodeFn_dow_toNat]
  split <;> split <;> omega

/-- An unknown flag comes back as off (R82, R89). -/
theorem dstOf_encodeFn (c : Word64) :
    dstOf (encodeFn c) = if c.extractLsb' 43 2 = 0b01#2 then 0b01#2 else 0b00#2 := by
  apply BitVec.eq_of_toNat_eq
  rw [dstOf_toNat, getField_encodeFn_z1_toNat]
  split <;> rfl

/-! ### The whole word -/

/-- A word made of the members of `a` below `dsta` and zeros above is `a` with `dsta` cleared, when `a` has zeros above
`dsta`. -/
theorem eq_clear_dsta {a r : Word64} (hlow : r.extractLsb' 0 45 = a.extractLsb' 0 45)
    (hr : r.extractLsb' 45 19 = 0) (ha : a.extractLsb' 47 17 = 0) : r = a &&& 0xFFFF9FFFFFFFFFFF := by
  have hmembers : (a &&& 0xFFFF9FFFFFFFFFFF).extractLsb' 0 45 = a.extractLsb' 0 45 := by
    rw [BitVec.extractLsb'_and, show (0xFFFF9FFFFFFFFFFF : Word64).extractLsb' 0 45 = BitVec.allOnes 45 by decide,
      BitVec.and_allOnes]
  have hdsta : (a &&& 0xFFFF9FFFFFFFFFFF).extractLsb' 45 2 = (0#64).extractLsb' 45 2 := by
    rw [BitVec.extractLsb'_and, show (0xFFFF9FFFFFFFFFFF : Word64).extractLsb' 45 2 = 0#2 by decide, BitVec.and_zero,
      BitVec.extractLsb'_zero]
  have habove : (a &&& 0xFFFF9FFFFFFFFFFF).extractLsb' 47 17 = (0#64).extractLsb' 47 17 := by
    rw [BitVec.extractLsb'_and, ha]
    exact BitVec.zero_and
  have hhigh : r.extractLsb' 45 19 = (a &&& 0xFFFF9FFFFFFFFFFF).extractLsb' 45 19 :=
    hr.trans (extractLsb'_add_congr hdsta habove).symm
  have hword : r.extractLsb' 0 64 = (a &&& 0xFFFF9FFFFFFFFFFF).extractLsb' 0 64 :=
    extractLsb'_add_congr (hlow.trans hmembers.symm) hhigh
  simpa using hword

/-- Within the bounds minute, hour, day and month come back as the low 32 bits of the operand. -/
theorem decodeFn_encodeFn_low {c : Word64} (hmin : (c.extractLsb' 0 8).toNat ≤ 79)
    (hhour : (c.extractLsb' 8 8).toNat ≤ 39) (hmday : (c.extractLsb' 16 8).toNat ≤ 39)
    (hmon : (c.extractLsb' 24 8).toNat ≤ 18) :
    (decodeFn (encodeFn c)).extractLsb' 0 32 = c.extractLsb' 0 32 := by
  obtain ⟨rmin, rhour, rmday, rmon, -⟩ := decodeFn_slices (encodeFn c)
  rw [decodeField_encodeFn_min hmin] at rmin
  rw [decodeField_encodeFn_hour hhour] at rhour
  rw [decodeField_encodeFn_day hmday] at rmday
  rw [monthOf_encodeFn hmon] at rmon
  exact extractLsb'_add_congr (extractLsb'_add_congr (extractLsb'_add_congr rmin rhour) rmday) rmon

/-- With year, weekday and flag in range too, and the ignored bits zero, the operand comes back with `dsta` cleared. -/
theorem decodeFn_encodeFn_inRange {c : Word64}
    (hlow : (decodeFn (encodeFn c)).extractLsb' 0 32 = c.extractLsb' 0 32)
    (hyear : (c.extractLsb' 32 8).toNat ≤ 99) (hwday : (c.extractLsb' 40 3).toNat ≤ 6)
    (hdst : (c.extractLsb' 43 2).toNat ≤ 1) (hrest : (c.extractLsb' 47 17).toNat = 0) :
    decodeFn (encodeFn c) = c &&& 0xFFFF9FFFFFFFFFFF := by
  obtain ⟨-, -, -, -, ryear, rwday, rdst, rrest⟩ := decodeFn_slices (encodeFn c)
  have eyear : decodeField (encodeFn c) .year = c.extractLsb' 32 8 :=
    BitVec.eq_of_toNat_eq ((decodeField_encodeFn_year_toNat c).trans (Nat.mod_eq_of_lt (by omega)))
  have ewday : wdayOf (encodeFn c) = c.extractLsb' 40 3 :=
    BitVec.eq_of_toNat_eq ((wdayOf_encodeFn_toNat c).trans (Nat.mod_eq_of_lt (by omega)))
  have resolved : ∀ d : BitVec 2, d.toNat ≤ 1 → (if d = 0b01#2 then 0b01#2 else 0b00#2) = d := by decide
  have edst : dstOf (encodeFn c) = c.extractLsb' 43 2 := (dstOf_encodeFn c).trans (resolved _ hdst)
  have hmembers : (decodeFn (encodeFn c)).extractLsb' 0 45 = c.extractLsb' 0 45 :=
    extractLsb'_add_congr (extractLsb'_add_congr (extractLsb'_add_congr hlow (ryear.trans eyear)) (rwday.trans ewday))
      (rdst.trans edst)
  exact eq_clear_dsta hmembers rrest (BitVec.eq_of_toNat_eq hrest)

/-- Settles O44: member by member within the bounds; one past each of them, by evaluation. -/
theorem encodeThenDecodeReturnsTheCalendar : Obligations.EncodeThenDecodeReturnsTheCalendar := by
  refine ⟨fun s => ?_, by decide⟩
  intro mem hmin hhour hmday hmon
  have hlow := decodeFn_encodeFn_low hmin hhour hmday hmon
  obtain ⟨-, -, -, -, ryear, rwday, rdst, rrest⟩ := decodeFn_slices (encodeFn s.arg)
  refine ⟨respond (encodeFn s.arg) .ok (writeBlk (encodeFn s.arg) s), _, decodeFn (encodeFn s.arg),
    (exec_encode s).trans (store_eq _ s), exec_decode _, rfl, by simp, hlow, ?year, ?wday, ?dst, rrest,
    decodeFn_encodeFn_inRange hlow⟩
  case year => rw [ryear, decodeField_encodeFn_year_toNat]
  case wday => rw [rwday, wdayOf_encodeFn_toNat]
  case dst => rw [rdst, dstOf_encodeFn]

end Sys2Proof.Machine
end

section
/-! PROOFS. `SETF` (R97), which fields the syndrome depends on (R99, R122), and the fields in their order as the stream:
their values at their offsets (R98) and their binary-digit strings (R100). -/

namespace Sys2Proof.Machine

/-! ### SETF -/

theorem exec_setf_ok {fsel : BitVec 5} (h : fselInRange fsel = true) (s : State) :
    ∃ v r, exec (.setf fsel) s = .next (respond r .ok (writeBlk v s)) := by
  obtain ⟨f, hf⟩ := fieldOf_eq_some h
  exact ⟨_, _, exec_setf_of_some hf s⟩

/-- Settles O24: the bits of the insertion, the two sides of the selector's bound, and the words of the opcode. -/
theorem setfWritesTheFieldOnly : Obligations.SetfWritesTheFieldOnly := by
  refine ⟨fun f => ⟨encode_setf_number f, fun s => ⟨setField s.blk f s.arg, ?_, fun k _ => getLsbD_setField ..⟩⟩,
    fun fsel s h => ?_, fun s c cs hs hop => ?_⟩
  · rw [exec_setf_of_some (fieldOf_number f), store_eq]
    rfl
  · rw [exec_setf_of_none (fieldOf_eq_none h), raiseIllegal_eq]
    rfl
  · exact step_fieldCommand_illegal_iff (fun _ => exec_setf_ok) hs (decode_of_opOf_setf hop)

/-! ### The fields the syndrome depends on -/

/-- The fields of the three parity groups and their parity bits (R74, R76). -/
def coveredFields : List Field := [.min, .hour, .day, .dow, .mon, .year, .p1, .p2, .p3]

/-- Blocks that agree on those fields have one syndrome (R76). -/
theorem synd_eq_of_coveredFields {a b : Word64} (h : ∀ f ∈ coveredFields, getField a f = getField b f) :
    synd a = synd b := by
  simp only [synd, p1c, p2c, p3c]
  rw [fieldParity_congr (h .min (by decide)), fieldParity_congr (h .hour (by decide)),
    fieldParity_congr (h .day (by decide)), fieldParity_congr (h .dow (by decide)),
    fieldParity_congr (h .mon (by decide)), fieldParity_congr (h .year (by decide)),
    h .p1 (by decide), h .p2 (by decide), h .p3 (by decide)]

/-- An insertion into another field leaves the syndrome (R99). -/
theorem synd_setField_of_not_covered {n : Nat} (b : Word64) {f : Field} (v : BitVec n) (h : f ∉ coveredFields) :
    synd (setField b f v) = synd b :=
  synd_eq_of_coveredFields fun _ hg => getField_setField_of_ne b v fun hgf => h (hgf ▸ hg)

/-- The lowest bit of a covered field set in the empty Block shows in the syndrome (R99). -/
theorem synd_setField_zero_one_ne_zero : ∀ f ∈ coveredFields, synd (setField 0#64 f 1#1) ≠ 0 := by decide

/-- Settles O41: no field of the first list is covered; the empty Block is the case for each of the second. -/
theorem settingUncoveredFieldsKeepsTheSyndrome : Obligations.SettingUncoveredFieldsKeepsTheSyndrome := by
  have uncovered : ∀ f ∈ [Field.m, .civ, .r, .a1, .z1, .z2, .a2, .s, .mm], f ∉ coveredFields := by decide
  exact ⟨fun _ b v f hf => synd_setField_of_not_covered b v (uncovered f hf),
    fun f hf => ⟨0#64, by decide, synd_setField_zero_one_ne_zero f hf⟩⟩

/-! ### The fields in their order -/

/-- The fields of a list lie next to each other and fill positions `lo` to `hi - 1` (R28). -/
def Tiles (lo : Nat) : List Field → Nat → Prop
  | [], hi => lo = hi
  | f :: fs, hi => f.off = lo ∧ Tiles (lo + f.wid) fs hi

/-- The layout fills positions 0 to 59 (R28). -/
theorem tiles_all : Tiles 0 Field.all 60 := by simp [Tiles, Field.all, Field.off, Field.wid]

/-- A field at its offset is what the bits up to its end add to those below it (R31). -/
theorem mod_add_getField (b : Word64) (f : Field) :
    b.toNat % 2 ^ f.off + (getField b f).toNat * 2 ^ f.off = b.toNat % 2 ^ (f.off + f.wid) := by
  rw [getField_toNat, Nat.pow_add, Nat.mod_mul, Nat.mul_comm]

/-- Fields that lie next to each other add their positions to the bits below them (R98). -/
theorem mod_add_sum_of_tiles (b : Word64) {fs : List Field} {lo hi : Nat} (h : Tiles lo fs hi) :
    b.toNat % 2 ^ lo + (fs.map fun f => (getField b f).toNat * 2 ^ f.off).sum = b.toNat % 2 ^ hi := by
  induction fs generalizing lo with
  | nil =>
    obtain rfl : lo = hi := h
    rfl
  | cons f fs ih =>
    obtain ⟨rfl, hfs⟩ := h
    rw [List.map_cons, List.sum_cons, ← Nat.add_assoc, mod_add_getField, ih hfs]

/-- Settles O33: the 18 fields, from position 0 on, add positions 0 to 59 to nothing. -/
theorem fieldsReassembleTheStream : Obligations.FieldsReassembleTheStream := by
  intro b
  simpa [Nat.mod_one] using mod_add_sum_of_tiles b tiles_all

/-! ### The binary digits -/

/-- The character of stream position `i` (R100). -/
def bitDigit (b : Word64) (i : Nat) : Char := if b.getLsbD i then '1' else '0'

/-- A field's string spells its positions, the lowest first (R30, R100). -/
theorem fieldDigits_eq (b : Word64) (f : Field) :
    fieldDigits b f = (List.range f.wid).map fun k => bitDigit b (f.off + k) := by
  refine List.map_congr_left fun k hk => ?_
  have hwid : k < f.wid := List.mem_range.1 hk
  simp only [getLsbD_getField, hwid, decide_true, Bool.true_and, bitDigit]

/-- The strings of fields that lie next to each other carry on the spelling of the positions below them (R100). -/
theorem digits_of_tiles (b : Word64) {fs : List Field} {lo hi : Nat} (h : Tiles lo fs hi) :
    (List.range lo).map (bitDigit b) ++ fs.flatMap (fieldDigits b) = (List.range hi).map (bitDigit b) := by
  induction fs generalizing lo with
  | nil =>
    obtain rfl : lo = hi := h
    exact List.append_nil _
  | cons f fs ih =>
    obtain ⟨rfl, hfs⟩ := h
    rw [← ih hfs, List.flatMap_cons, ← List.append_assoc, List.range_add, List.map_append, List.map_map, fieldDigits_eq]
    rfl

/-- The digits of the views are the strings of the fields, whatever the hexadecimal strings are. -/
theorem flatMap_digits_fieldViews (hexLength : Field → Nat) (b : Word64) :
    (fieldViews hexLength b).flatMap FieldView.digits = Field.all.flatMap (fieldDigits b) := by
  rw [fieldViews, List.flatMap_map]

/-- Settles O53: each string by `fieldDigits_eq`; the 18 of them, from position 0 on, spell positions 0 to 59. -/
theorem fieldViewsSpellTheStream : Obligations.FieldViewsSpellTheStream := by
  refine fun b => ⟨fun f => ⟨?_, fun k hk => ?_⟩, fun hexLength => ?_⟩
  · rw [fieldDigits_eq, List.length_map, List.length_range]
  · rw [fieldDigits_eq, List.getElem?_map, List.getElem?_range hk]
    rfl
  · rw [flatMap_digits_fieldViews]
    exact digits_of_tiles b tiles_all

end Sys2Proof.Machine
end

section
/-! PROOFS. The 64-bit load and store as accesses to all eight bytes of the Block (R126). -/

namespace Sys2Proof.Machine

/-- A read of all eight bytes is the whole Block. -/
theorem memRead_all (b : Word64) : memRead b 0 8 = some b := by
  rw [memRead_of_le b (by omega)]
  exact congrArg some BitVec.extractLsb'_eq_self

/-- A write of all eight bytes leaves nothing of the Block that was there. -/
theorem memWrite_all (b v : Word64) : memWrite b 0 8 v = some v := by
  obtain ⟨w, hw, hbits⟩ := exists_memWrite_bits b (a := 0) (n := 8) v (by omega)
  have hv : w = v := BitVec.eq_of_getLsbD_eq fun k hk => (hbits k hk).trans (if_pos ⟨by omega, by omega⟩)
  rw [hw, hv]

/-- Settles O36: `RDBLK` answers the Block, `LDBLK` stores and answers the operand, and the whole access gives just
these. -/
theorem blockLoadAndStoreAreWholeMemoryAccesses : Obligations.BlockLoadAndStoreAreWholeMemoryAccesses := by
  refine fun s => ⟨⟨s.blk, memRead_all s.blk, ?_⟩, s.arg, ?_, ?_⟩
  · rw [exec_rdblk, answer_eq, BitVec.setWidth_eq]
    rfl
  · rw [BitVec.setWidth_eq]
    exact memWrite_all s.blk s.arg
  · rw [exec_ldblk, store_eq]
    rfl

end Sys2Proof.Machine
end

section
/-! PROOFS. The one exception of the block (R103), and the moment at which no command is presented (R110, R115). -/

namespace Sys2Proof.Machine

/-- Settles O8: the step of an empty pending list. -/
theorem idleWhenNoCommandIsPresented : Obligations.IdleWhenNoCommandIsPresented := fun _ => step_nil

/-- A well-formed instruction answers `OK`: the only terms that raise are `GETF` and `SETF` with a selector above 17. -/
theorem exec_ok_of_wellFormed {i : Instr} (h : i.wellFormed = true) (s : State) :
    ∃ v r, exec i s = .next (respond r .ok (writeBlk v s)) := by
  cases i with
  | clr | ldblk | encode => exact ⟨_, _, rfl⟩
  | rdblk | bcdenc | bcddec | par32 | pcalc | synd | decode => exact ⟨s.blk, _, rfl⟩
  | getf fsel => exact exec_getf_ok h s
  | setf fsel => exact exec_setf_ok h s

/-- A legal word answers `OK` (R52, R103). -/
theorem step_of_legal {s : State} {c : Command} {cs : List Command} (hs : s.pending = c :: cs) (h : Legal c.cw) :
    ∃ v r, step s = .next (respond r .ok (writeBlk v { s with cw := c.cw, arg := c.arg, pending := cs })) := by
  obtain ⟨i, hd⟩ := (exists_decode_eq_command_iff_legal c.cw).2 h
  rw [step_of_command hs hd]
  exact exec_ok_of_wellFormed (decode_eq_command_iff.1 hd).1 _

/-- A word that is not legal leaves nothing but the exception's response (R103). -/
theorem step_of_not_legal {s : State} {c : Command} {cs : List Command} (hs : s.pending = c :: cs)
    (h : ¬ Legal c.cw) :
    step s = .next (respond 0 .illegal { s with cw := c.cw, arg := c.arg, pending := cs }) :=
  reservedAndIllegalWordsRaise.2 s c cs hs ((reservedOrIllegal_iff_not_legal c.cw).2 h)

/-- One command presented to equal Blocks has one effect on `BLK` and one response (R47). -/
theorem step_same_effect_of_blk_eq {s s' : State} {c : Command} {cs cs' : List Command} (hs : s.pending = c :: cs)
    (hs' : s'.pending = c :: cs') (hblk : s.blk = s'.blk) :
    ∃ u v q, step s = .next u ∧ step s' = .next v ∧ u.blk = v.blk ∧
      u.responses = s.responses ++ [q] ∧ v.responses = s'.responses ++ [q] := by
  obtain ⟨f, hf⟩ := stepIsATotalFunctionOfBlkCwArg
  have hstep' := hf s' c cs' hs'
  rw [← hblk] at hstep'
  exact ⟨_, _, _, hf s c cs hs, hstep', rfl, rfl, rfl⟩

/-- Settles O10: the step of a word that is legal and of one that is not; the exception keeps `BLK`, so the next command
finds the Block it would have found. -/
theorem illegalCommandIffWordNotLegal : Obligations.IllegalCommandIffWordNotLegal := by
  refine ⟨rfl, rfl, fun s c cs hs => ?_⟩
  by_cases h : Legal c.cw
  · obtain ⟨v, r, hstep⟩ := step_of_legal hs h
    exact ⟨_, ⟨r, .ok⟩, hstep, rfl, iff_of_false nofun (not_not.2 h), absurd h⟩
  · refine ⟨_, ⟨0, .illegal⟩, step_of_not_legal hs h, rfl, iff_of_true rfl h, fun _ => ⟨rfl, ?_⟩⟩
    rintro c₂ cs₂ rfl
    exact step_same_effect_of_blk_eq rfl rfl rfl

end Sys2Proof.Machine
end

section
/-! PROOFS. Running the whole pending list (R124, R125): it ends, with one response per command; and a list without a
writing command is one reading of one Block (R120). -/

namespace Sys2Proof.Machine

/-- As many steps as there are pending commands leave none pending, with everything that each step keeps: no step faults
or is refused (R47). -/
theorem run_pending_keeps {P : State → Prop} (hkeep : ∀ {s t : State}, P s → step s = .next t → P t) {s : State}
    (h : P s) : ∃ t : State, Host.Core.run Sys2Proof.core s.pending.length s = .next t ∧ t.pending = [] ∧ P t := by
  generalize hs : s.pending = cs
  induction cs generalizing s with
  | nil => exact ⟨s, rfl, hs, h⟩
  | cons c cs ih =>
    obtain ⟨v, r, st, hstep, -⟩ := step_cons_cases hs
    obtain ⟨t, hrun, hend⟩ := ih (hkeep h hstep) rfl
    exact ⟨t, (run_succ _ hstep).trans hrun, hend⟩

/-! ### One response per command -/

/-- Between `s` and the later state `u` the host was given as many responses as it presented commands (R125). -/
def AnsweredSince (s u : State) : Prop :=
  ∃ rs : List Response, rs.length + u.pending.length = s.pending.length ∧ u.responses = s.responses ++ rs

theorem answeredSince_refl (s : State) : AnsweredSince s s := ⟨[], Nat.zero_add _, (List.append_nil _).symm⟩

/-- A step presents one command and adds one response, or does neither. -/
theorem step_keeps_answeredSince {s u t : State} (h : AnsweredSince s u) (hstep : step u = .next t) :
    AnsweredSince s t := by
  cases hu : u.pending with
  | nil =>
    rw [step_nil hu] at hstep
    cases hstep
    exact h
  | cons c cs =>
    obtain ⟨rs, hlen, hresponses⟩ := h
    obtain ⟨v, r, st, hnext, -⟩ := step_cons_cases hu
    rw [hnext] at hstep
    cases hstep
    refine ⟨rs ++ [⟨r, st⟩], ?_, by simp [hresponses]⟩
    rw [← hlen, hu, List.length_append]
    exact Nat.add_right_comm rs.length 1 cs.length

/-- Settles O11: the responses given since the start are counted through the run, at whose end no command is left. -/
theorem everyCommandListRunsToItsEnd : Obligations.EveryCommandListRunsToItsEnd := by
  intro s
  obtain ⟨t, hrun, hend, rs, hlen, hresponses⟩ := run_pending_keeps step_keeps_answeredSince (answeredSince_refl s)
  rw [hend] at hlen
  exact ⟨t, hrun, hend, rs, hlen, hresponses⟩

/-! ### A list without a writing command -/

/-- The Block is `b`, and no command yet to be presented writes it (R22, R120). -/
def KeepsBlock (b : Word64) (s : State) : Prop :=
  s.blk = b ∧ ∀ c ∈ s.pending, ∀ i, decode c.cw = .command i → ¬ WritesBlk i

/-- The meaning of a command that is no writer leaves `BLK` (R22). -/
theorem exec_blk_of_not_writesBlk {i : Instr} {s t : State} (hi : ¬ WritesBlk i) (h : exec i s = .next t) :
    t.blk = s.blk := by
  obtain ⟨-, -, -, -, writers⟩ := onlyFourCommandsChangeBlk i s t h
  by_contra hne
  obtain rfl | rfl | rfl | ⟨fsel, rfl⟩ := writers hne <;> exact hi trivial

/-- A step leaves `BLK` when no writer is pending: idle, a command that does not write, or an illegal word. -/
theorem step_blk_of_keepsBlock {b : Word64} {s t : State} (h : KeepsBlock b s) (hstep : step s = .next t) :
    t.blk = b := by
  obtain ⟨hblk, hpending⟩ := h
  cases hs : s.pending with
  | nil =>
    rw [step_nil hs] at hstep
    cases hstep
    exact hblk
  | cons c cs =>
    cases hd : decode c.cw with
    | command i =>
      rw [step_of_command hs hd] at hstep
      have hsame := exec_blk_of_not_writesBlk (hpending c (by simp [hs]) i hd) hstep
      exact hsame.trans hblk
    | illegal why =>
      rw [step_of_illegal hs hd] at hstep
      cases hstep
      exact hblk

/-- A step leaves a rest of the list, which holds no writer either. -/
theorem step_keeps_keepsBlock {b : Word64} {s t : State} (h : KeepsBlock b s) (hstep : step s = .next t) :
    KeepsBlock b t := by
  refine ⟨step_blk_of_keepsBlock h hstep, fun c hc => h.2 c ?_⟩
  rw [step_pending hstep] at hc
  exact List.mem_of_mem_tail hc

/-- Settles O29: each step keeps the Block the list starts with, to the end of the list. -/
theorem commandsThatDoNotWriteKeepOneBlock : Obligations.CommandsThatDoNotWriteKeepOneBlock := by
  intro s hpending
  obtain ⟨t, hrun, hend, hblk, -⟩ := run_pending_keeps (P := KeepsBlock s.blk) step_keeps_keepsBlock ⟨rfl, hpending⟩
  exact ⟨t, hrun, hblk, hend⟩

end Sys2Proof.Machine
end
